-- ==== Sys2Proof/Word.lean ====
section
/-!
DEFINITION. The words of the core (00_scope.md R9): bytes, 16-bit words, 4-bit nibbles and 12-bit addresses.
All of them are unsigned (42_alu.md R157).
-/

namespace Sys2Proof

/-- A memory byte, a V register, DT, ST or a random draw: 8 bits. -/
abbrev Byte := BitVec 8

/-- I, pc, a stack slot or an opcode: 16 bits. -/
abbrev Word := BitVec 16

/-- A 4-bit field of an opcode: a register or key number, or the sprite height n. -/
abbrev Nibble := BitVec 4

/-- The 12-bit address field nnn. -/
abbrev Addr := BitVec 12

end Sys2Proof
end

