-- ==== Sys2Proof/Syntax.lean ====
section
/-!
DEFINITION. The instructions: one constructor per row of spec/opcode_table.json (30_encoding.md R76), named after the
decode function of R77. `x` and `y` name V registers, `n` is the sprite height, `nn` a byte, `nnn` an address (R72).
-/

namespace Sys2Proof

/-- The 34 instructions of 30_encoding.md R76, in the order of its table. -/
inductive Instr where
  | cls
  | ret
  | call (nnn : Addr)
  | jp (nnn : Addr)
  | seImm (x : Nibble) (nn : Byte)
  | sneImm (x : Nibble) (nn : Byte)
  | seReg (x y : Nibble)
  | sneReg (x y : Nibble)
  | ldImm (x : Nibble) (nn : Byte)
  | addImm (x : Nibble) (nn : Byte)
  | ldReg (x y : Nibble)
  | orReg (x y : Nibble)
  | andReg (x y : Nibble)
  | xorReg (x y : Nibble)
  | addReg (x y : Nibble)
  | sub (x y : Nibble)
  | shr (x y : Nibble)
  | subn (x y : Nibble)
  | shl (x y : Nibble)
  | ldI (nnn : Addr)
  | jpV0 (nnn : Addr)
  | rnd (x : Nibble) (nn : Byte)
  | drw (x y n : Nibble)
  | skp (x : Nibble)
  | sknp (x : Nibble)
  | ldFromDt (x : Nibble)
  | ldK (x : Nibble)
  | ldDt (x : Nibble)
  | ldSt (x : Nibble)
  | addI (x : Nibble)
  | ldF (x : Nibble)
  | ldB (x : Nibble)
  | stRegs (x : Nibble)
  | ldRegs (x : Nibble)
  deriving DecidableEq, Repr

end Sys2Proof
end

