-- ==== Sys2Proof/WellFormed.lean ====
section
/-!
DEFINITION. Which instructions a machine with parameter P6 has (30_encoding.md R79). Every operand field is exactly as
wide as its type and every value of it is legal (10_state.md R21, R78), so P6 is the one check.
-/

namespace Sys2Proof

/-- The optional memory-transfer group, Fx33, Fx55 and Fx65 (46_ext_memory.md). -/
def Instr.needsExtMem : Instr → Bool
  | .ldB _ => true
  | .stRegs _ => true
  | .ldRegs _ => true
  | .cls | .ret | .call _ | .jp _ | .seImm _ _ | .sneImm _ _ | .seReg _ _ | .sneReg _ _ => false
  | .ldImm _ _ | .addImm _ _ | .ldReg _ _ | .orReg _ _ | .andReg _ _ | .xorReg _ _ => false
  | .addReg _ _ | .sub _ _ | .shr _ _ | .subn _ _ | .shl _ _ | .ldI _ | .jpV0 _ | .rnd _ _ => false
  | .drw _ _ _ | .skp _ | .sknp _ | .ldFromDt _ | .ldK _ | .ldDt _ | .ldSt _ | .addI _ | .ldF _ => false

/-- `i` is an instruction of the machine with `p6` (30_encoding.md R79). -/
def Instr.wellFormed (p6 : Bool) (i : Instr) : Bool :=
  !i.needsExtMem || p6

end Sys2Proof
end

