-- ==== Sys2Proof/Decode.lean ====
section
/-!
DEFINITION. Encoding and decoding (30_encoding.md): the fields of R72, the decode function of R77, the formats of R74
with the encoder, and the opcode table of R76 as match and mask.
-/

namespace Sys2Proof

/-! ## Fields (R71, R72) -/

/-- The instruction class, op[15:12] (R71). -/
def opClass (op : Word) : Nibble := op.extractLsb' 12 4

/-- x = op[11:8] (R72). -/
def fieldX (op : Word) : Nibble := op.extractLsb' 8 4

/-- y = op[7:4] (R72). -/
def fieldY (op : Word) : Nibble := op.extractLsb' 4 4

/-- n = op[3:0] (R72). -/
def fieldN (op : Word) : Nibble := op.extractLsb' 0 4

/-- nn = op[7:0] (R72). -/
def fieldNN (op : Word) : Byte := op.extractLsb' 0 8

/-- nnn = op[11:0] (R72). -/
def fieldNNN (op : Word) : Addr := op.extractLsb' 0 12

/-! ## Decoding (R73, R77–R81) -/

/-- What an opcode decodes to: an instruction of the table or `Unknown(op)` (R73). -/
inductive Decoded where
  | instr (i : Instr)
  | unknown (op : Word)
  deriving DecidableEq, Repr

/-- Class 8, by n (R77). -/
def decodeAlu (op : Word) (x y : Nibble) : Decoded :=
  match fieldN op with
  | 0x0#4 => .instr (.ldReg x y)
  | 0x1#4 => .instr (.orReg x y)
  | 0x2#4 => .instr (.andReg x y)
  | 0x3#4 => .instr (.xorReg x y)
  | 0x4#4 => .instr (.addReg x y)
  | 0x5#4 => .instr (.sub x y)
  | 0x6#4 => .instr (.shr x y)
  | 0x7#4 => .instr (.subn x y)
  | 0xE#4 => .instr (.shl x y)
  | _ => .unknown op

/-- Class E, by nn (R77). -/
def decodeKey (op : Word) (x : Nibble) : Decoded :=
  match fieldNN op with
  | 0x9E#8 => .instr (.skp x)
  | 0xA1#8 => .instr (.sknp x)
  | _ => .unknown op

/-- Class F, by nn; the last three rows only with P6 (R77, R79). -/
def decodeMisc (p6 : Bool) (op : Word) (x : Nibble) : Decoded :=
  match fieldNN op with
  | 0x07#8 => .instr (.ldFromDt x)
  | 0x0A#8 => .instr (.ldK x)
  | 0x15#8 => .instr (.ldDt x)
  | 0x18#8 => .instr (.ldSt x)
  | 0x1E#8 => .instr (.addI x)
  | 0x29#8 => .instr (.ldF x)
  | 0x33#8 => if p6 then .instr (.ldB x) else .unknown op
  | 0x55#8 => if p6 then .instr (.stRegs x) else .unknown op
  | 0x65#8 => if p6 then .instr (.ldRegs x) else .unknown op
  | _ => .unknown op

/-- The decode function of R77, total over all 65536 opcodes. -/
def decode (p6 : Bool) (op : Word) : Decoded :=
  match opClass op with
  | 0x0#4 => if op = 0x00E0#16 then .instr .cls else if op = 0x00EE#16 then .instr .ret else .unknown op
  | 0x1#4 => .instr (.jp (fieldNNN op))
  | 0x2#4 => .instr (.call (fieldNNN op))
  | 0x3#4 => .instr (.seImm (fieldX op) (fieldNN op))
  | 0x4#4 => .instr (.sneImm (fieldX op) (fieldNN op))
  | 0x5#4 => if fieldN op = 0x0#4 then .instr (.seReg (fieldX op) (fieldY op)) else .unknown op
  | 0x6#4 => .instr (.ldImm (fieldX op) (fieldNN op))
  | 0x7#4 => .instr (.addImm (fieldX op) (fieldNN op))
  | 0x8#4 => decodeAlu op (fieldX op) (fieldY op)
  | 0x9#4 => if fieldN op = 0x0#4 then .instr (.sneReg (fieldX op) (fieldY op)) else .unknown op
  | 0xA#4 => .instr (.ldI (fieldNNN op))
  | 0xB#4 => .instr (.jpV0 (fieldNNN op))
  | 0xC#4 => .instr (.rnd (fieldX op) (fieldNN op))
  | 0xD#4 => .instr (.drw (fieldX op) (fieldY op) (fieldN op))
  | 0xE#4 => decodeKey op (fieldX op)
  | _ => decodeMisc p6 op (fieldX op)

/-- The opcode of two consecutive bytes, big-endian (20_memory.md R56). -/
def opcodeOfBytes (hi lo : Byte) : Word := hi ++ lo

/-- What a list of bytes decodes to. -/
inductive DecodedBytes where
  /-- The instruction at the head of the bytes, and the bytes after it. -/
  | instr (i : Instr) (rest : List Byte)
  /-- The first two bytes are an opcode that R80 lists as illegal. -/
  | unknown (op : Word)
  /-- Fewer than the two bytes of an opcode (R70). -/
  | truncated
  deriving DecidableEq, Repr

/-- Decoding the head of any list of bytes: every instruction is two bytes (R70). -/
def decodeBytes (p6 : Bool) : List Byte → DecodedBytes
  | hi :: lo :: rest =>
    match decode p6 (opcodeOfBytes hi lo) with
    | .instr i => .instr i rest
    | .unknown op => .unknown op
  | [_] => .truncated
  | [] => .truncated

/-! ## Formats and the encoder (R74, R76) -/

/-- Format A: `cccc nnnn nnnn nnnn`. -/
def formatA (c : Nibble) (nnn : Addr) : Word := c ++ nnn

/-- Format XNN: `cccc xxxx nnnn nnnn`. -/
def formatXNN (c x : Nibble) (nn : Byte) : Word := c ++ x ++ nn

/-- Format XY: `cccc xxxx yyyy ffff`. -/
def formatXY (c x y f : Nibble) : Word := c ++ x ++ y ++ f

/-- Format XYN: `cccc xxxx yyyy nnnn`. -/
def formatXYN (c x y n : Nibble) : Word := c ++ x ++ y ++ n

/-- Format X: `cccc xxxx ffff ffff`. -/
def formatX (c x : Nibble) (f : Byte) : Word := c ++ x ++ f

/-- The opcode of an instruction: its row of R76 with the fields filled in. -/
def encode : Instr → Word
  | .cls => 0x00E0#16
  | .ret => 0x00EE#16
  | .call nnn => formatA 0x2#4 nnn
  | .jp nnn => formatA 0x1#4 nnn
  | .seImm x nn => formatXNN 0x3#4 x nn
  | .sneImm x nn => formatXNN 0x4#4 x nn
  | .seReg x y => formatXY 0x5#4 x y 0x0#4
  | .sneReg x y => formatXY 0x9#4 x y 0x0#4
  | .ldImm x nn => formatXNN 0x6#4 x nn
  | .addImm x nn => formatXNN 0x7#4 x nn
  | .ldReg x y => formatXY 0x8#4 x y 0x0#4
  | .orReg x y => formatXY 0x8#4 x y 0x1#4
  | .andReg x y => formatXY 0x8#4 x y 0x2#4
  | .xorReg x y => formatXY 0x8#4 x y 0x3#4
  | .addReg x y => formatXY 0x8#4 x y 0x4#4
  | .sub x y => formatXY 0x8#4 x y 0x5#4
  | .shr x y => formatXY 0x8#4 x y 0x6#4
  | .subn x y => formatXY 0x8#4 x y 0x7#4
  | .shl x y => formatXY 0x8#4 x y 0xE#4
  | .ldI nnn => formatA 0xA#4 nnn
  | .jpV0 nnn => formatA 0xB#4 nnn
  | .rnd x nn => formatXNN 0xC#4 x nn
  | .drw x y n => formatXYN 0xD#4 x y n
  | .skp x => formatX 0xE#4 x 0x9E#8
  | .sknp x => formatX 0xE#4 x 0xA1#8
  | .ldFromDt x => formatX 0xF#4 x 0x07#8
  | .ldK x => formatX 0xF#4 x 0x0A#8
  | .ldDt x => formatX 0xF#4 x 0x15#8
  | .ldSt x => formatX 0xF#4 x 0x18#8
  | .addI x => formatX 0xF#4 x 0x1E#8
  | .ldF x => formatX 0xF#4 x 0x29#8
  | .ldB x => formatX 0xF#4 x 0x33#8
  | .stRegs x => formatX 0xF#4 x 0x55#8
  | .ldRegs x => formatX 0xF#4 x 0x65#8

/-- The two bytes of an instruction as memory holds them, the high byte first (20_memory.md R56). -/
def encodeBytes (i : Instr) : List Byte :=
  [(encode i).extractLsb' 8 8, (encode i).extractLsb' 0 8]

/-! ## The opcode table as match and mask (R76) -/

/-- One row of spec/opcode_table.json: an opcode `op` is of the row when `op &&& mask = pattern`. -/
structure OpcodeRow where
  pattern : Word
  mask : Word
  deriving DecidableEq, Repr

/-- The row of an instruction, from the table's match and mask columns. -/
def Instr.row : Instr → OpcodeRow
  | .cls => ⟨0x00E0#16, 0xFFFF#16⟩
  | .ret => ⟨0x00EE#16, 0xFFFF#16⟩
  | .call _ => ⟨0x2000#16, 0xF000#16⟩
  | .jp _ => ⟨0x1000#16, 0xF000#16⟩
  | .seImm _ _ => ⟨0x3000#16, 0xF000#16⟩
  | .sneImm _ _ => ⟨0x4000#16, 0xF000#16⟩
  | .seReg _ _ => ⟨0x5000#16, 0xF00F#16⟩
  | .sneReg _ _ => ⟨0x9000#16, 0xF00F#16⟩
  | .ldImm _ _ => ⟨0x6000#16, 0xF000#16⟩
  | .addImm _ _ => ⟨0x7000#16, 0xF000#16⟩
  | .ldReg _ _ => ⟨0x8000#16, 0xF00F#16⟩
  | .orReg _ _ => ⟨0x8001#16, 0xF00F#16⟩
  | .andReg _ _ => ⟨0x8002#16, 0xF00F#16⟩
  | .xorReg _ _ => ⟨0x8003#16, 0xF00F#16⟩
  | .addReg _ _ => ⟨0x8004#16, 0xF00F#16⟩
  | .sub _ _ => ⟨0x8005#16, 0xF00F#16⟩
  | .shr _ _ => ⟨0x8006#16, 0xF00F#16⟩
  | .subn _ _ => ⟨0x8007#16, 0xF00F#16⟩
  | .shl _ _ => ⟨0x800E#16, 0xF00F#16⟩
  | .ldI _ => ⟨0xA000#16, 0xF000#16⟩
  | .jpV0 _ => ⟨0xB000#16, 0xF000#16⟩
  | .rnd _ _ => ⟨0xC000#16, 0xF000#16⟩
  | .drw _ _ _ => ⟨0xD000#16, 0xF000#16⟩
  | .skp _ => ⟨0xE09E#16, 0xF0FF#16⟩
  | .sknp _ => ⟨0xE0A1#16, 0xF0FF#16⟩
  | .ldFromDt _ => ⟨0xF007#16, 0xF0FF#16⟩
  | .ldK _ => ⟨0xF00A#16, 0xF0FF#16⟩
  | .ldDt _ => ⟨0xF015#16, 0xF0FF#16⟩
  | .ldSt _ => ⟨0xF018#16, 0xF0FF#16⟩
  | .addI _ => ⟨0xF01E#16, 0xF0FF#16⟩
  | .ldF _ => ⟨0xF029#16, 0xF0FF#16⟩
  | .ldB _ => ⟨0xF033#16, 0xF0FF#16⟩
  | .stRegs _ => ⟨0xF055#16, 0xF0FF#16⟩
  | .ldRegs _ => ⟨0xF065#16, 0xF0FF#16⟩

/-- The opcode `op` is of the row `r`. -/
def OpcodeRow.covers (r : OpcodeRow) (op : Word) : Bool := op &&& r.mask == r.pattern

/-! ## The host's question -/

/-- The instruction the decoder reads from an instruction whose bits are `w` (bit 0 the least significant bit of the
opcode), with every optional group of the table enabled (P6). The two bytes are laid out as memory holds them. -/
def decodeTableWord (nbits w : Nat) : Option Instr :=
  if nbits ≤ 16 then
    let op : Word := BitVec.ofNat 16 (w % 2 ^ nbits)
    match decodeBytes true [op.extractLsb' 8 8, op.extractLsb' 0 8] with
    | .instr i _ => some i
    | .unknown _ => none
    | .truncated => none
  else none

end Sys2Proof
end

