-- ==== Sys2Proof/Config.lean ====
section
/-!
DEFINITION. The configuration parameters P1–P8 (00_scope.md R6), fixed for the life of the machine, and the free
value of the random draw (R7). A field's default is R6's default column, the reference configuration.
-/

namespace Sys2Proof

/-- P2: what an unknown opcode does (40_execution_cycle.md R107). -/
inductive DecodeErrorPolicy where
  | skip
  | halt
  deriving DecidableEq, Repr

/-- P1–P8 of 00_scope.md R6. -/
structure Config where
  /-- P1 STEP_DECAYS_TIMERS: `step` also decays DT and ST after the instruction (R109). -/
  stepDecaysTimers : Bool := false
  /-- P2 DECODE_ERROR_POLICY (R107). -/
  decodeErrorPolicy : DecodeErrorPolicy := .skip
  /-- P3 SHIFT_USES_VY: 8xy6 and 8xyE shift Vy (R160, R162). -/
  shiftUsesVy : Bool := false
  /-- P4 FX1E_SETS_VF: Fx1E writes VF (R182). -/
  fx1eSetsVf : Bool := false
  /-- P5 FX0A_ON_RELEASE: true is refused (R208). -/
  fx0aOnRelease : Bool := false
  /-- P6 EXT_MEM_OPS: Fx33, Fx55 and Fx65 decode (R79). -/
  extMemOps : Bool := false
  /-- P7 LOADSTORE_INCREMENTS_I: Fx55 and Fx65 leave I = I + x + 1 (R221, R222). -/
  loadStoreIncrementsI : Bool := false
  /-- P8 MEM_FILL: the bytes reset puts where neither font nor ROM stands (R260). An entry (a, b) gives the byte b
  at address a (the first entry of an address counts); an address without an entry has the reference byte 0x00. -/
  memFill : List Host.Cell := []
  deriving DecidableEq, Repr

/-- MEM_FILL[a] (P8). -/
def Config.fillByte (c : Config) (a : Nat) : Byte :=
  match c.memFill.find? (fun cell => cell.1 == a) with
  | some cell => cell.2
  | none => 0x00#8

/-- FREE VALUE. The k-th random byte the host's source delivers, where the host has not handed it over in the
state (00_scope.md R7: "every byte value 0x00–0xFF is admitted at every step, and no rule relates the draws of
different steps"). It has no body, so nothing can be proved of its value. -/
opaque Config.freeDraw : Nat → Byte

end Sys2Proof
end

