-- ==== Sys2Proof/Machine/State.lean ====
section
/-!
DEFINITION. The architectural state (10_state.md R20), the error record (60_exceptions.md R231, R232), the four
outcomes of an instruction (40_execution_cycle.md R105), the reasons a step has no next state, and the reset state
(10_state.md R38).
-/

namespace Sys2Proof.Machine

/-! ## Errors and status -/

/-- The error kinds of 60_exceptions.md R232. -/
inductive ErrorCode where
  /-- An unknown opcode; recorded only under P2 = Halt. -/
  | decodeError
  /-- A push with sp = 16 (2nnn). -/
  | stackOverflow
  /-- A pop with sp = 0 (00EE). -/
  | stackUnderflow
  /-- An access above 0xFFF (fetch, Dxyn, Fx33, Fx55, Fx65). -/
  | addressOutOfBounds
  /-- A ROM too long or unreadable; reported by reset, never by a step. -/
  | loadError
  deriving DecidableEq, Repr

/-- The error record (R231). -/
structure ErrorRecord where
  code   : ErrorCode
  pc     : Word
  opcode : Option Word
  addr   : Option Word
  deriving DecidableEq, Repr

/-- Running, or halted by a fatal error (10_state.md R34). -/
inductive Status where
  | running
  | halted (err : ErrorRecord)
  deriving DecidableEq, Repr

/-! ## State -/

/-- Memory: the bytes that differ from what an unlisted address reads as, addresses strictly rising
(Machine/Memory.lean). -/
abbrev Memory := List Host.Cell

/-- The display buffer disp[px][py]: 64 columns of 32 pixels (10_state.md R30). -/
abbrev Display := Vector (Vector Bool 32) 64

/-- The display with every pixel false (44_display.md R190). -/
def Display.clear : Display := Vector.replicate 64 (Vector.replicate 32 false)

/-- The state aggregate of 10_state.md R20. The last three fields are the model's own: the spec makes the
configuration and the random draw arguments of the machine (log entries 1 and 2). -/
structure State where
  /-- Memory, 4096 bytes (20_memory.md R50). -/
  mem : Memory
  /-- V0–VF (R21). -/
  v : Vector Byte 16
  /-- The index register I (R24). -/
  i : Word
  /-- The program counter (R25). -/
  pc : Word
  /-- The sixteen return-address slots (R27). -/
  stack : Vector Word 16
  /-- The number of entries the stack holds, 0..16 (R27). -/
  sp : Fin 17
  /-- The display buffer (R30). -/
  disp : Display
  /-- The input latch: key[k] is pressed (R31). -/
  key : Vector Bool 16
  /-- The delay timer DT (R32). -/
  dt : Byte
  /-- The sound timer ST (R33). -/
  st : Byte
  /-- Running or Halted(err) (R34). -/
  status : Status
  /-- The configuration P1–P8 (00_scope.md R6). -/
  cfg : Config
  /-- The random bytes the host has handed over for the coming Cxnn, first one first (00_scope.md R7). -/
  rndIn : List Byte
  /-- How many draws Cxnn has consumed; names the next free value of `Config.freeDraw`. -/
  draws : Nat
  deriving DecidableEq, Repr

/-! ## Outcomes -/

/-- Why the machine stops with a fault. No constructor: every error of the spec has an effect the spec describes, the
status Halted (60_exceptions.md R233), and is a next state (log entry 6). Safe: nothing can be claimed of a fault. -/
inductive Fault where
  deriving DecidableEq, Repr

/-- Why the machine gives an instruction no meaning. -/
inductive Refusal where
  /-- An arm of exec whose instruction has no meaning yet raises it; no arm does. Safe: nothing is claimed of it. -/
  | notModelled (mnemonic : String)
  /-- Fx0A under P5 = true raises it, and so does creating a core with P5 = true: 45_keys_timers.md R208, "a model
  refuses a configuration with P5 = true rather than guess one". Safe: no run goes through it (log entry 3). -/
  | fx0aOnRelease
  deriving DecidableEq, Repr

/-- The outcome of an instruction or a step. -/
abbrev Result := Host.Outcome State Fault Refusal

/-- How `execute` ends (40_execution_cycle.md R105), and the refusal of R208. -/
inductive Effect where
  /-- The instruction did not write pc; the post-step rule adds 2. -/
  | advance (s : State)
  /-- The instruction wrote pc itself. -/
  | set (s : State)
  /-- Fx0A with no key pressed: nothing changes. -/
  | block
  /-- A fatal error: only status changes. -/
  | error (e : ErrorRecord)
  /-- R208: no semantics to give. -/
  | refuse (r : Refusal)
  deriving DecidableEq, Repr

/-! ## Reset -/

/-- The state of a fresh core with the configuration `c` and the memory `m` (70_reset_and_hazards.md R260). -/
def State.fresh (c : Config) (m : Memory) : State where
  mem := m
  v := Vector.replicate 16 0x00#8
  i := 0x0000#16
  pc := 0x0200#16
  stack := Vector.replicate 16 0x0000#16
  sp := 0
  disp := Display.clear
  key := Vector.replicate 16 false
  dt := 0x00#8
  st := 0x00#8
  status := .running
  cfg := c
  rndIn := []
  draws := 0

/-- The machine right after reset (10_state.md R38) with no ROM, in the reference configuration (00_scope.md R6):
memory holds the font and 0x00 elsewhere, which is what unlisted addresses read as. -/
def State.reset : State := State.fresh {} []

end Sys2Proof.Machine
end

