-- ==== Sys2Proof/Machine/Memory.lean ====
section
/-!
DEFINITION. Memory (20_memory.md): the font, what an unlisted address reads as, reading and writing one byte, and the
canonical form of the list.
-/

namespace Sys2Proof.Machine

/-- The 16 glyphs of 20_memory.md R58, five rows each, top row first. -/
def fontGlyphs : List (List Byte) :=
  [[0xF0#8, 0x90#8, 0x90#8, 0x90#8, 0xF0#8],
   [0x20#8, 0x60#8, 0x20#8, 0x20#8, 0x70#8],
   [0xF0#8, 0x10#8, 0xF0#8, 0x80#8, 0xF0#8],
   [0xF0#8, 0x10#8, 0xF0#8, 0x10#8, 0xF0#8],
   [0x90#8, 0x90#8, 0xF0#8, 0x10#8, 0x10#8],
   [0xF0#8, 0x80#8, 0xF0#8, 0x10#8, 0xF0#8],
   [0xF0#8, 0x80#8, 0xF0#8, 0x90#8, 0xF0#8],
   [0xF0#8, 0x10#8, 0x20#8, 0x40#8, 0x40#8]] ++
  [[0xF0#8, 0x90#8, 0xF0#8, 0x90#8, 0xF0#8],
   [0xF0#8, 0x90#8, 0xF0#8, 0x10#8, 0xF0#8],
   [0xF0#8, 0x90#8, 0xF0#8, 0x90#8, 0x90#8],
   [0xE0#8, 0x90#8, 0xE0#8, 0x90#8, 0xE0#8],
   [0xF0#8, 0x80#8, 0x80#8, 0x80#8, 0xF0#8],
   [0xE0#8, 0x90#8, 0x90#8, 0x90#8, 0xE0#8],
   [0xF0#8, 0x80#8, 0xF0#8, 0x80#8, 0xF0#8],
   [0xF0#8, 0x80#8, 0xF0#8, 0x80#8, 0x80#8]]

/-- FONT[a] for a in 0x000..0x04F: row a % 5 of glyph a / 5 (R51, R58). -/
def fontByte (a : Nat) : Byte := (fontGlyphs.getD (a / 5) []).getD (a % 5) 0x00#8

/-- What an address that memory does not list reads as: the font below 0x050 (R51) and 0x00, MEM_FILL's reference
value, elsewhere (10_state.md R38, log entry 4). -/
def Memory.unlisted (a : Nat) : Byte := if a < 0x50 then fontByte a else 0x00#8

/-- mem[a]. -/
def Memory.peek (m : Memory) (a : Nat) : Byte :=
  match m with
  | [] => Memory.unlisted a
  | (b, w) :: rest => if a = b then w else Memory.peek rest a

/-- mem[a] <- v, keeping the canonical form. -/
def Memory.poke (m : Memory) (a : Nat) (v : Byte) : Memory :=
  match m with
  | [] => if v = Memory.unlisted a then [] else [(a, v)]
  | (b, w) :: rest =>
    if a < b then (if v = Memory.unlisted a then (b, w) :: rest else (a, v) :: (b, w) :: rest)
    else if a = b then (if v = Memory.unlisted a then rest else (a, v) :: rest)
    else (b, w) :: Memory.poke rest a v

/-- mem[base], mem[base + 1], … <- the bytes in order. -/
def Memory.pokeSpan (m : Memory) (base : Nat) : List Byte → Memory
  | [] => m
  | v :: vs => Memory.pokeSpan (m.poke base v) (base + 1) vs

/-- The canonical form from address `lo` on: addresses strictly rising, inside 0x000–0xFFF (R50), and no entry equal
to what its address reads as when it is not listed. -/
def Memory.wfFrom (lo : Nat) : Memory → Bool
  | [] => true
  | (a, v) :: rest =>
    decide (lo ≤ a) && decide (a ≤ 0xFFF) && decide (v ≠ Memory.unlisted a) && Memory.wfFrom (a + 1) rest

/-- Memory is in its canonical form. -/
def Memory.wf (m : Memory) : Bool := Memory.wfFrom 0 m

end Sys2Proof.Machine
end

