-- ==== Sys2Proof/Machine/Ops.lean ====
section
/-!
DEFINITION. The named operations every meaning is written with: registers, memory spans with their bounds check, the
call stack, the display, the keys, the timers, the random draw, raising an error (the core's only exception entry,
60_exceptions.md R233) and the post-step rule (40_execution_cycle.md R105, R106, R109).
-/

namespace Sys2Proof.Machine

/-! ## Registers (10_state.md R21–R25) -/

/-- The number of VF, the flag register (R23). -/
def vF : Nibble := 0xF#4

/-- V[r]. -/
def State.reg (s : State) (r : Nibble) : Byte := s.v[r.toNat]'r.isLt

/-- V[r] <- b. -/
def State.setReg (s : State) (r : Nibble) (b : Byte) : State := { s with v := s.v.set r.toNat b r.isLt }

/-- Write the whole register file. -/
def State.setRegs (s : State) (v : Vector Byte 16) : State := { s with v := v }

/-- V[x] <- r, then VF <- f: the flag is written last (42_alu.md R150). -/
def State.setRegFlag (s : State) (x : Nibble) (r f : Byte) : State := (s.setReg x r).setReg vF f

/-- I <- a. -/
def State.setI (s : State) (a : Word) : State := { s with i := a }

/-- pc <- a. -/
def State.setPc (s : State) (a : Word) : State := { s with pc := a }

/-- V[k], V[k + 1], … <- the bytes in order (46_ext_memory.md R222). -/
def State.setRegsFrom (s : State) (k : Nat) : List Byte → State
  | [] => s
  | b :: bs => State.setRegsFrom (s.setReg (BitVec.ofNat 4 k) b) (k + 1) bs

/-- V[0], …, V[x] (46_ext_memory.md R221). -/
def State.regsUpTo (s : State) (x : Nibble) : List Byte :=
  (List.range (x.toNat + 1)).map fun k => s.reg (BitVec.ofNat 4 k)

/-! ## Memory spans (20_memory.md R52–R54) -/

/-- Write memory. -/
def State.setMem (s : State) (m : Memory) : State := { s with mem := m }

/-- The first of the addresses base, …, base + n − 1 that lies above 0xFFF. Addresses are not reduced modulo 4096
(R54). -/
def firstOutside (base n : Nat) : Option Nat :=
  ((List.range n).map (base + ·)).find? fun a => decide (0xFFF < a)

/-- MemRead of the n bytes from base, every address checked first; an error names the first address outside memory
(R52, R54). -/
def State.readSpan (s : State) (base n : Nat) : Except Nat (List Byte) :=
  match firstOutside base n with
  | some a => .error a
  | none => .ok ((List.range n).map fun k => s.mem.peek (base + k))

/-- MemWrite of the bytes from base on, every address checked before any write (R53, R54). -/
def State.writeSpan (s : State) (base : Nat) (bytes : List Byte) : Except Nat State :=
  match firstOutside base bytes.length with
  | some a => .error a
  | none => .ok (s.setMem (s.mem.pokeSpan base bytes))

/-! ## Call stack (10_state.md R27–R29) -/

/-- stack[k]. -/
def State.slot (s : State) (k : Fin 16) : Word := s.stack[k.val]'k.isLt

/-- Write the slots and the stack pointer. -/
def State.setStack (s : State) (slots : Vector Word 16) (sp : Fin 17) : State := { s with stack := slots, sp := sp }

/-- Push r; none when sp = 16 (R28). -/
def State.push (s : State) (r : Word) : Option State :=
  if h : s.sp.val < 16 then some (s.setStack (s.stack.set s.sp.val r h) ⟨s.sp.val + 1, by omega⟩) else none

/-- Pop: the value, and the state with the entry removed; the slot keeps its value; none when sp = 0 (R29). -/
def State.pop (s : State) : Option (Word × State) :=
  if h : s.sp.val = 0 then none
  else some (s.slot ⟨s.sp.val - 1, by omega⟩, s.setStack s.stack ⟨s.sp.val - 1, by omega⟩)

/-! ## Display (10_state.md R30) -/

/-- disp[px][py]. -/
def Display.pixel (d : Display) (px : Fin 64) (py : Fin 32) : Bool := (d[px.val]'px.isLt)[py.val]'py.isLt

/-- disp[px][py] <- b. -/
def Display.put (d : Display) (px : Fin 64) (py : Fin 32) (b : Bool) : Display :=
  d.set px.val ((d[px.val]'px.isLt).set py.val b py.isLt) px.isLt

/-- Write the display buffer. -/
def State.setDisp (s : State) (d : Display) : State := { s with disp := d }

/-! ## Keys (10_state.md R31) -/

/-- key[k]. -/
def State.keyDown (s : State) (k : Nibble) : Bool := s.key[k.toNat]'k.isLt

/-- min { k | key[k] } (45_keys_timers.md R203, R204). -/
def State.lowestKey (s : State) : Option Nibble :=
  ((List.range 16).map (BitVec.ofNat 4)).find? s.keyDown

/-! ## Timers (40_execution_cycle.md R109) -/

/-- One decay of a timer: toward 0, never below it. -/
def decayed (t : Byte) : Byte := if t = 0x00#8 then 0x00#8 else t - 0x01#8

/-- decay(σ) of R109. -/
def State.decay (s : State) : State := { s with dt := decayed s.dt, st := decayed s.st }

/-- DT <- b. -/
def State.setDt (s : State) (b : Byte) : State := { s with dt := b }

/-- ST <- b. -/
def State.setSt (s : State) (b : Byte) : State := { s with st := b }

/-! ## The random draw (00_scope.md R7) -/

/-- The byte the next Cxnn draws: what the host handed over, or else the free value. -/
def State.draw (s : State) : Byte :=
  match s.rndIn with
  | r :: _ => r
  | [] => Config.freeDraw s.draws

/-- The draw is consumed (43_index_random.md R181: only by Cxnn). -/
def State.dropDraw (s : State) : State := { s with rndIn := s.rndIn.tail, draws := s.draws + 1 }

/-! ## Errors and the end of a step -/

/-- The effect of a fatal error: nothing but status changes (60_exceptions.md R233). The only return from it is reset
(R237). -/
def State.halt (s : State) (e : ErrorRecord) : State := { s with status := .halted e }

/-- Timer decay inside step, under P1 (40_execution_cycle.md R109). -/
def State.stepDecay (s : State) : State := if s.cfg.stepDecaysTimers then s.decay else s

/-- The end of a step, from the state `s` the instruction started in (R101, R105, R106, R109). -/
def finish (s : State) : Effect → Result
  | .advance t => .next (t.setPc (s.pc + 2#16)).stepDecay
  | .set t => .next t.stepDecay
  | .block => .next s
  | .error e => .next (s.halt e)
  | .refuse r => .refused r

/-- `raise E(pc, op, addr)` by the instruction `i`: pc is the instruction's own address (R104) and op its opcode
(60_exceptions.md R231). -/
def raise (s : State) (code : ErrorCode) (i : Instr) (addr : Option Nat) : Result :=
  finish s (.error { code := code, pc := s.pc, opcode := some (encode i), addr := addr.map (BitVec.ofNat 16) })

end Sys2Proof.Machine
end

