-- ==== Sys2Proof/Machine/Flags.lean ====
section
/-!
DEFINITION. Every value the core writes to VF as a flag (10_state.md R23), computed from the operands as read
(42_alu.md R150).
-/

namespace Sys2Proof.Machine

/-- 1 when the condition holds, else 0. -/
def flag (c : Bool) : Byte := if c then 0x01#8 else 0x00#8

/-- The carry of a + b: 1 iff the sum is above 255 (42_alu.md R158). -/
def carryFlag (a b : Byte) : Byte := flag (decide (255 < a.toNat + b.toNat))

/-- The no-borrow flag of a − b: 1 iff a ≥ b (42_alu.md R159, R161). -/
def noBorrowFlag (a b : Byte) : Byte := flag (decide (b.toNat ≤ a.toNat))

/-- The bit a right shift moves out (42_alu.md R160). -/
def shiftedOutRight (b : Byte) : Byte := b &&& 0x01#8

/-- The bit a left shift moves out (42_alu.md R162). -/
def shiftedOutLeft (b : Byte) : Byte := (b >>> 7) &&& 0x01#8

/-- The overflow of I + v past 0xFFF, from the unwrapped sum (43_index_random.md R182, P4). -/
def indexOverflowFlag (i : Word) (v : Byte) : Byte := flag (decide (0xFFF < i.toNat + v.toNat))

end Sys2Proof.Machine
end

