-- ==== Sys2Proof/Machine/Operands.lean ====
section
/-!
DEFINITION. How operands become values (30_encoding.md R75 and the instruction rules): addresses, key numbers, the shift
source, the glyph address, the sprite's coordinates, decimal digits, and the pc of a skip.
-/

namespace Sys2Proof.Machine

/-- zext_16(nnn) (30_encoding.md R75). -/
def address (nnn : Addr) : Word := nnn.setWidth 16

/-- zext_16 of a byte. -/
def wordOfByte (b : Byte) : Word := b.setWidth 16

/-- The pc a taken skip writes: the instruction's own address + 4 (41_control_flow.md R133). -/
def State.skipTarget (s : State) : Word := s.pc + 4#16

/-- The target of Bnnn: nnn + V0, not reduced modulo 4096 (41_control_flow.md R137). -/
def State.jumpV0Target (s : State) (nnn : Addr) : Word := address nnn + wordOfByte (s.reg 0x0#4)

/-- The source of 8xy6 and 8xyE: Vx, or Vy under P3 (42_alu.md R160, R162). -/
def State.shiftSource (s : State) (x y : Nibble) : Byte :=
  if s.cfg.shiftUsesVy then s.reg y else s.reg x

/-- The low nibble of a byte, V[x] & 0x0F: a key number (45_keys_timers.md R200) or a hex digit (43_index_random.md
R183). -/
def lowNibble (b : Byte) : Nibble := b.extractLsb' 0 4

/-- 5 * k, the address of glyph k (43_index_random.md R183). -/
def glyphAddress (k : Nibble) : Word := 5#16 * k.setWidth 16

/-- I + x + 1 modulo 2^16 (46_ext_memory.md R221, R222). -/
def State.indexPast (s : State) (x : Nibble) : Word := s.i + x.setWidth 16 + 1#16

/-- I after Fx55 or Fx65: past the bytes under P7, else unchanged (46_ext_memory.md R221, R222). -/
def State.indexAfterTransfer (s : State) (x : Nibble) : Word :=
  if s.cfg.loadStoreIncrementsI then s.indexPast x else s.i

/-- x0 = V[x] mod 64 (44_display.md R191). -/
def State.spriteColumn (s : State) (x : Nibble) : Nat := (s.reg x).toNat % 64

/-- y0 = V[y] mod 32 (44_display.md R191). -/
def State.spriteRow (s : State) (y : Nibble) : Nat := (s.reg y).toNat % 32

/-- The hundreds, tens and units of a byte, in memory order (46_ext_memory.md R220). -/
def decimalDigits (b : Byte) : List Byte :=
  [b / 100#8, b / 10#8 % 10#8, b % 10#8]

end Sys2Proof.Machine
end

