-- ==== Sys2Proof/Machine/Alu.lean ====
section
/-!
DEFINITION. Register loads and arithmetic-logic (42_alu.md). Every instruction advances; operands are read before Vx is
written, and the flag is written last (R150).
-/

namespace Sys2Proof.Machine

/-- Write Vx and advance. -/
def writeReg (s : State) (x : Nibble) (r : Byte) : Result := finish s (.advance (s.setReg x r))

/-- Write Vx, then the flag, and advance (R150). -/
def writeRegFlag (s : State) (x : Nibble) (r f : Byte) : Result := finish s (.advance (s.setRegFlag x r f))

/-- 6xnn LD Vx, nn (R151). -/
def execLdImm (x : Nibble) (nn : Byte) (s : State) : Result := writeReg s x nn

/-- 7xnn ADD Vx, nn (R152): no flag. -/
def execAddImm (x : Nibble) (nn : Byte) (s : State) : Result := writeReg s x (s.reg x + nn)

/-- 8xy0 LD Vx, Vy (R153). -/
def execLdReg (x y : Nibble) (s : State) : Result := writeReg s x (s.reg y)

/-- 8xy1 OR Vx, Vy (R154). -/
def execOr (x y : Nibble) (s : State) : Result := writeReg s x (s.reg x ||| s.reg y)

/-- 8xy2 AND Vx, Vy (R155). -/
def execAnd (x y : Nibble) (s : State) : Result := writeReg s x (s.reg x &&& s.reg y)

/-- 8xy3 XOR Vx, Vy (R156). -/
def execXor (x y : Nibble) (s : State) : Result := writeReg s x (s.reg x ^^^ s.reg y)

/-- 8xy4 ADD Vx, Vy (R158). -/
def execAddReg (x y : Nibble) (s : State) : Result :=
  writeRegFlag s x (s.reg x + s.reg y) (carryFlag (s.reg x) (s.reg y))

/-- 8xy5 SUB Vx, Vy (R159). -/
def execSub (x y : Nibble) (s : State) : Result :=
  writeRegFlag s x (s.reg x - s.reg y) (noBorrowFlag (s.reg x) (s.reg y))

/-- 8xy6 SHR Vx, Vy (R160). -/
def execShr (x y : Nibble) (s : State) : Result :=
  writeRegFlag s x (s.shiftSource x y >>> 1) (shiftedOutRight (s.shiftSource x y))

/-- 8xy7 SUBN Vx, Vy (R161). -/
def execSubn (x y : Nibble) (s : State) : Result :=
  writeRegFlag s x (s.reg y - s.reg x) (noBorrowFlag (s.reg y) (s.reg x))

/-- 8xyE SHL Vx, Vy (R162). -/
def execShl (x y : Nibble) (s : State) : Result :=
  writeRegFlag s x (s.shiftSource x y <<< 1) (shiftedOutLeft (s.shiftSource x y))

end Sys2Proof.Machine
end

