-- ==== Sys2Proof/Machine/Control.lean ====
section
/-!
DEFINITION. Control transfer (41_control_flow.md): return, call, jumps and skips.
-/

namespace Sys2Proof.Machine

/-- A conditional skip: pc + 4 when the condition holds, else the ordinary advance (R133). The skipped word is not
fetched. -/
def skipIf (s : State) (c : Bool) : Result :=
  finish s (if c then .set (s.setPc s.skipTarget) else .advance s)

/-- 00EE RET (R130). -/
def execRet (s : State) : Result :=
  match s.pop with
  | some (r, t) => finish s (.set (t.setPc r))
  | none => raise s .stackUnderflow .ret none

/-- 2nnn CALL nnn (R131): pushes the address of the next instruction. -/
def execCall (nnn : Addr) (s : State) : Result :=
  match s.push (s.pc + 2#16) with
  | some t => finish s (.set (t.setPc (address nnn)))
  | none => raise s .stackOverflow (.call nnn) none

/-- 1nnn JP nnn (R132). -/
def execJp (nnn : Addr) (s : State) : Result := finish s (.set (s.setPc (address nnn)))

/-- 3xnn SE Vx, nn (R133). -/
def execSeImm (x : Nibble) (nn : Byte) (s : State) : Result := skipIf s (s.reg x == nn)

/-- 4xnn SNE Vx, nn (R134). -/
def execSneImm (x : Nibble) (nn : Byte) (s : State) : Result := skipIf s (s.reg x != nn)

/-- 5xy0 SE Vx, Vy (R135). -/
def execSeReg (x y : Nibble) (s : State) : Result := skipIf s (s.reg x == s.reg y)

/-- 9xy0 SNE Vx, Vy (R136). -/
def execSneReg (x y : Nibble) (s : State) : Result := skipIf s (s.reg x != s.reg y)

/-- Bnnn JP V0, nnn (R137). -/
def execJpV0 (nnn : Addr) (s : State) : Result := finish s (.set (s.setPc (s.jumpV0Target nnn)))

end Sys2Proof.Machine
end

