-- ==== Sys2Proof/Machine/Display.lean ====
section
/-!
DEFINITION. The display instructions (44_display.md), the blit written as the loop of R191.
-/

namespace Sys2Proof.Machine

/-- What a blit has done so far: the display, and whether a pixel went from true to false. -/
structure Blit where
  disp : Display
  collision : Bool
  deriving DecidableEq, Repr

/-- One bit of the sprite at one pixel: a 1 bit inverts the pixel, and collides when the pixel was true (R191). -/
def Blit.bit (b : Blit) (px : Fin 64) (py : Fin 32) (one : Bool) : Blit :=
  if one then ⟨b.disp.put px py (!b.disp.pixel px py), b.collision || b.disp.pixel px py⟩ else b

/-- One row of the sprite: bit 7 − c goes to column (x0 + c) mod 64 (R191). -/
def Blit.row (b : Blit) (x0 : Nat) (py : Fin 32) (byte : Byte) : Blit :=
  (List.range 8).foldl (fun b c => b.bit (Fin.ofNat 64 (x0 + c)) py (byte.getLsbD (7 - c))) b

/-- The rows of the sprite, the first one at row y0 mod 32, the next one below it (R191). -/
def Blit.rows (b : Blit) (x0 y0 : Nat) : List Byte → Blit
  | [] => b
  | byte :: rest => Blit.rows (b.row x0 (Fin.ofNat 32 y0) byte) x0 (y0 + 1) rest

/-- 00E0 CLS (R190). -/
def execCls (s : State) : Result := finish s (.advance (s.setDisp Display.clear))

/-- Dxyn DRW Vx, Vy, n (R191): the coordinates are read before VF is written, and every address is checked before
anything is. -/
def execDrw (x y n : Nibble) (s : State) : Result :=
  match s.readSpan s.i.toNat n.toNat with
  | .error a => raise s .addressOutOfBounds (.drw x y n) (some a)
  | .ok sprite =>
    let b := Blit.rows ⟨s.disp, false⟩ (s.spriteColumn x) (s.spriteRow y) sprite
    finish s (.advance ((s.setDisp b.disp).setReg vF (flag b.collision)))

end Sys2Proof.Machine
end

