-- ==== Sys2Proof/Machine/ExtMem.lean ====
section
/-!
DEFINITION. The optional memory-transfer instructions (46_ext_memory.md). They decode only with P6
(30_encoding.md R79); every address is checked before anything is written.
-/

namespace Sys2Proof.Machine

/-- Fx33 LD B, Vx (R220). -/
def execLdB (x : Nibble) (s : State) : Result :=
  match s.writeSpan s.i.toNat (decimalDigits (s.reg x)) with
  | .error a => raise s .addressOutOfBounds (.ldB x) (some a)
  | .ok t => finish s (.advance t)

/-- Fx55 LD [I], Vx (R221). -/
def execStRegs (x : Nibble) (s : State) : Result :=
  match s.writeSpan s.i.toNat (s.regsUpTo x) with
  | .error a => raise s .addressOutOfBounds (.stRegs x) (some a)
  | .ok t => finish s (.advance (t.setI (s.indexAfterTransfer x)))

/-- Fx65 LD Vx, [I] (R222). -/
def execLdRegs (x : Nibble) (s : State) : Result :=
  match s.readSpan s.i.toNat (x.toNat + 1) with
  | .error a => raise s .addressOutOfBounds (.ldRegs x) (some a)
  | .ok bytes => finish s (.advance ((s.setRegsFrom 0 bytes).setI (s.indexAfterTransfer x)))

end Sys2Proof.Machine
end

