-- ==== Sys2Proof/Machine/Index.lean ====
section
/-!
DEFINITION. The index register and the random byte (43_index_random.md). None of these instructions accesses memory.
-/

namespace Sys2Proof.Machine

/-- Annn LD I, nnn (R180). -/
def execLdI (nnn : Addr) (s : State) : Result := finish s (.advance (s.setI (address nnn)))

/-- Cxnn RND Vx, nn (R181): the draw is masked and consumed. -/
def execRnd (x : Nibble) (nn : Byte) (s : State) : Result :=
  finish s (.advance (s.setReg x (s.draw &&& nn)).dropDraw)

/-- Fx1E ADD I, Vx (R182): modulo 2^16; the flag only under P4, after I. -/
def execAddI (x : Nibble) (s : State) : Result :=
  let t := s.setI (s.i + wordOfByte (s.reg x))
  finish s (.advance (if s.cfg.fx1eSetsVf then t.setReg vF (indexOverflowFlag s.i (s.reg x)) else t))

/-- Fx29 LD F, Vx (R183). -/
def execLdF (x : Nibble) (s : State) : Result :=
  finish s (.advance (s.setI (glyphAddress (lowNibble (s.reg x)))))

end Sys2Proof.Machine
end

