-- ==== Sys2Proof/Machine/Keys.lean ====
section
/-!
DEFINITION. The key and timer instructions (45_keys_timers.md).
-/

namespace Sys2Proof.Machine

/-- Ex9E SKP Vx (R200). -/
def execSkp (x : Nibble) (s : State) : Result := skipIf s (s.keyDown (lowNibble (s.reg x)))

/-- ExA1 SKNP Vx (R201). -/
def execSknp (x : Nibble) (s : State) : Result := skipIf s (!s.keyDown (lowNibble (s.reg x)))

/-- Fx07 LD Vx, DT (R202). -/
def execLdFromDt (x : Nibble) (s : State) : Result := finish s (.advance (s.setReg x s.dt))

/-- Fx0A LD Vx, K (R203–R205): the lowest pressed key, or the step blocks. P5 = true is refused (R208). -/
def execLdK (x : Nibble) (s : State) : Result :=
  if s.cfg.fx0aOnRelease then finish s (.refuse .fx0aOnRelease)
  else
    match s.lowestKey with
    | some k => finish s (.advance (s.setReg x (k.setWidth 8)))
    | none => finish s .block

/-- Fx15 LD DT, Vx (R206). -/
def execLdDt (x : Nibble) (s : State) : Result := finish s (.advance (s.setDt (s.reg x)))

/-- Fx18 LD ST, Vx (R207). -/
def execLdSt (x : Nibble) (s : State) : Result := finish s (.advance (s.setSt (s.reg x)))

end Sys2Proof.Machine
end

