-- ==== Sys2Proof/Machine/Fetch.lean ====
section
/-!
DEFINITION. Fetch (40_execution_cycle.md R102, R103) and decode errors (R107).
-/

namespace Sys2Proof.Machine

/-- The opcode at pc, high byte first (R102). -/
def State.opcodeAtPc (s : State) : Word :=
  opcodeOfBytes (s.mem.peek s.pc.toNat) (s.mem.peek (s.pc.toNat + 1))

/-- Both bytes of the fetch lie in 0x000–0xFFF (R103). -/
def State.canFetch (s : State) : Bool := decide (s.pc.toNat ≤ 0xFFE)

/-- bad_fetch_addr(pc): the first byte address outside memory (R103). -/
def badFetchAddress (pc : Word) : Word := if 0xFFF < pc.toNat then pc else pc + 1#16

/-- The record of a fetch outside memory (R103). -/
def State.fetchError (s : State) : ErrorRecord :=
  { code := .addressOutOfBounds, pc := s.pc, opcode := none, addr := some (badFetchAddress s.pc) }

/-- The record of a decode error under P2 = Halt (R107). -/
def State.decodeErrorRecord (s : State) (op : Word) : ErrorRecord :=
  { code := .decodeError, pc := s.pc, opcode := some op, addr := none }

/-- A decode error: skipped like an instruction that does nothing, or fatal, by P2 (R107). -/
def decodeError (s : State) (op : Word) : Result :=
  match s.cfg.decodeErrorPolicy with
  | .skip => finish s (.advance s)
  | .halt => finish s (.error (s.decodeErrorRecord op))

/-- A fetch outside memory is fatal (R103). -/
def fetchOutside (s : State) : Result := finish s (.error s.fetchError)

end Sys2Proof.Machine
end

