-- ==== Sys2Proof/Machine/Step.lean ====
section
/-!
DEFINITION. One step (40_execution_cycle.md R101), its checks in the order of 60_exceptions.md R235, and the state in
which a given opcode is the next one fetched.
-/

namespace Sys2Proof.Machine

/-- Fetch, decode and execute in a running core (R101). -/
def stepRunning (s : State) : Host.Outcome State Fault Refusal :=
  if s.canFetch then
    match decode s.cfg.extMemOps s.opcodeAtPc with
    | .instr i => exec i s
    | .unknown op => decodeError s op
  else fetchOutside s

/-- `step` (R101); a halted core stays as it is (R108). -/
def step (s : State) : Host.Outcome State Fault Refusal :=
  match s.status with
  | .halted _ => .next s
  | .running => stepRunning s

/-- `s` with the opcode `w` (its bits above `nbits` zero) in the two bytes step fetches next. What running it takes is
set and nothing else: the core is running, pc can fetch, and P6 is on where the opcode is one of the optional group
(log entry 8). -/
def State.withFetchWord (s : State) (nbits w : Nat) : State :=
  let op : Word := BitVec.ofNat 16 (w % 2 ^ nbits)
  let pc : Word := if s.canFetch then s.pc else 0x0200#16
  let needsP6 : Bool := match decode true op with
    | .instr i => i.needsExtMem
    | .unknown _ => false
  { s with
    mem := s.mem.pokeSpan pc.toNat [op.extractLsb' 8 8, op.extractLsb' 0 8]
    pc := pc
    status := .running
    cfg := { s.cfg with extMemOps := s.cfg.extMemOps || needsP6 } }

end Sys2Proof.Machine
end

