-- ==== Sys2Proof/Machine/HostOps.lean ====
section
/-!
DEFINITION. The host's side of the core (40_execution_cycle.md R100, R110, R111, R120–R122): creating and resetting a
core, ticking, setting keys, a step with a given draw, what a step reports, and the read ports. `step` itself is in
Machine/Step.lean.
-/

namespace Sys2Proof.Machine

/-! ## Reset and ROM load (70_reset_and_hazards.md R260, R261) -/

/-- PROG_START (00_scope.md R5). -/
def progStart : Nat := 0x200

/-- MAX_ROM = 4096 − 0x200 (00_scope.md R5). -/
def maxRom : Nat := 3584

/-- MEM_FILL copied to the addresses that the font leaves (R260): for an address listed twice the first entry counts,
as in `Config.fillByte`. -/
def fillMemory (c : Config) : Memory :=
  c.memFill.foldr (fun cell m => if 0x50 ≤ cell.1 ∧ cell.1 ≤ 0xFFF then m.poke cell.1 cell.2 else m) []

/-- Memory after reset: fill, font and ROM (R260). The font is what unlisted addresses below 0x050 read as. -/
def resetMemory (c : Config) (rom : List Byte) : Memory := (fillMemory c).pokeSpan progStart rom

/-- What `reset(rom)` gives. -/
inductive Created where
  /-- The state of the fresh core. -/
  | ready (s : State)
  /-- LoadError: no state is created (R261). -/
  | loadError
  /-- A configuration the spec tells a model to refuse (45_keys_timers.md R208). -/
  | refused (r : Refusal)
  deriving DecidableEq, Repr

/-- `reset(rom)` in the configuration `c`; `rom` is none when it cannot be read (R260). -/
def createCore (c : Config) (rom : Option (List Byte)) : Created :=
  if c.fx0aOnRelease then .refused .fx0aOnRelease
  else
    match rom with
    | none => .loadError
    | some bytes => if maxRom < bytes.length then .loadError else .ready (State.fresh c (resetMemory c bytes))

/-- `reset(rom)` on a core that exists: the configuration is fixed for its life (10_state.md R36), the host's pending
draws stay the host's, and a LoadError leaves the state unmodified (R261). -/
def hostReset (rom : Option (List Byte)) (s : State) : State :=
  match createCore s.cfg rom with
  | .ready t => { t with rndIn := s.rndIn, draws := s.draws }
  | .loadError => s
  | .refused _ => s

/-! ## Timers and keys (R110, R111) -/

/-- `tick()`: one decay of both timers while running, nothing while halted (R110). -/
def tick (s : State) : State :=
  match s.status with
  | .running => s.decay
  | .halted _ => s

/-- `set_key(k, b)`, in any status (R111). -/
def setKey (k : Nibble) (b : Bool) (s : State) : State :=
  { s with key := s.key.set k.toNat b k.isLt }

/-! ## Steps (R101) -/

/-- `step(rnd)` with the host's byte: Cxnn draws it, and any other instruction ignores it (R101, 43_index_random.md
R181). -/
def stepWithDraw (rnd : Byte) (s : State) : Result :=
  match step { s with rndIn := [rnd] } with
  | .next t => .next { t with rndIn := s.rndIn }
  | .fault f => .fault f
  | .refused r => .refused r

/-- What the host gets back from an operation (the column "host gets back" of R120's table). -/
inductive Report where
  /-- "nothing": `tick` and `set_key`, in any status. -/
  | nothing
  /-- Ok: the ROM is loaded, or the step went on. -/
  | ok
  /-- Blocked: Fx0A with no key pressed. -/
  | blocked
  /-- DecodeError(op, addr): an unknown opcode skipped under P2 = Skip. -/
  | decodeError (op addr : Word)
  /-- Halted(err): the step halted the core, or found it halted. -/
  | halted (err : ErrorRecord)
  /-- LoadError: the ROM is too long or cannot be read. -/
  | loadError
  /-- The model's own: the step was refused (45_keys_timers.md R208). -/
  | refused (r : Refusal)
  deriving DecidableEq, Repr

/-- The instruction blocks in this state: Fx0A with no key pressed (45_keys_timers.md R205). -/
def blocks (i : Instr) (s : State) : Bool :=
  match i with
  | .ldK _ => s.lowestKey.isNone
  | _ => false

/-- What an executed instruction reports: the error it halted with, Blocked, or Ok (R101). -/
def execReport (i : Instr) (s : State) : Report :=
  match exec i s with
  | .refused r => .refused r
  | .fault f => nomatch f
  | .next t =>
    match t.status with
    | .halted e => .halted e
    | .running => if blocks i s then .blocked else .ok

/-- What `step` returns besides the state (R101, R107, R108). A skipped decode error is in the report alone
(92_eei_decisions.md D30). -/
def stepReport (s : State) : Report :=
  match s.status with
  | .halted e => .halted e
  | .running =>
    if s.canFetch then
      match decode s.cfg.extMemOps s.opcodeAtPc with
      | .instr i => execReport i s
      | .unknown op =>
        match s.cfg.decodeErrorPolicy with
        | .skip => .decodeError op s.pc
        | .halt => .halted (s.decodeErrorRecord op)
    else .halted s.fetchError

/-! ## Read ports (R121, R122) -/

/-- The sound output: ST > 0 (10_state.md R33). -/
def soundActive (s : State) : Bool := decide (0 < s.st.toNat)

/-- What the inspection port shows (R121). -/
structure Inspection where
  v : Vector Byte 16
  i : Word
  pc : Word
  sp : Fin 17
  stack : Vector Word 16
  dt : Byte
  st : Byte
  status : Status
  deriving DecidableEq, Repr

/-- The read-only inspection port (R121). -/
def inspect (s : State) : Inspection :=
  { v := s.v, i := s.i, pc := s.pc, sp := s.sp, stack := s.stack, dt := s.dt, st := s.st, status := s.status }

/-- The numeric codes of 60_exceptions.md R232. -/
def ErrorCode.number : ErrorCode → Nat
  | .decodeError => 1
  | .stackOverflow => 2
  | .stackUnderflow => 3
  | .addressOutOfBounds => 4
  | .loadError => 5

/-! ## Any schedule of the host (70_reset_and_hazards.md R272) -/

/-- The operations that drive the core (R100). -/
inductive HostOp where
  | reset (rom : Option (List Byte))
  | step (rnd : Byte)
  | tick
  | setKey (k : Nibble) (b : Bool)
  deriving DecidableEq, Repr

/-- One operation of the host, an atomic transition of the whole state (R100). -/
def HostOp.run (op : HostOp) (s : State) : Result :=
  match op with
  | .reset rom => .next (hostReset rom s)
  | .step rnd => stepWithDraw rnd s
  | .tick => .next (Sys2Proof.Machine.tick s)
  | .setKey k b => .next (Sys2Proof.Machine.setKey k b s)

/-- What the host gets back from an operation (R120): nothing from a tick or a key. -/
def HostOp.report (op : HostOp) (s : State) : Report :=
  match op with
  | .reset rom =>
    match createCore s.cfg rom with
    | .ready _ => .ok
    | .loadError => .loadError
    | .refused r => .refused r
  | .step rnd => stepReport { s with rndIn := [rnd] }
  | .tick => .nothing
  | .setKey _ _ => .nothing

/-- The operations of a schedule in order, up to the first that has no next state. -/
def runSchedule : List HostOp → State → Result
  | [], s => .next s
  | op :: ops, s =>
    match op.run s with
    | .next t => runSchedule ops t
    | .fault f => .fault f
    | .refused r => .refused r

end Sys2Proof.Machine
end

