-- ==== Sys2Proof/Safety.lean ====
section
/-!
DEFINITION. The terms claims are stated in: what stays unchanged (frames), the invariant of the machine, and the runs
of the host.
-/

namespace Sys2Proof.Machine

/-! ## Frames -/

/-- The parts of the state. -/
inductive Part where
  | regs | index | pc | stack | sp | disp | keys | dt | st | status | mem | cfg | rndIn | draws
  deriving DecidableEq, Repr

/-- The part reads in `t` as it did in `s`. -/
def Part.Same (s t : State) : Part → Prop
  | .regs => ∀ r, t.reg r = s.reg r
  | .index => t.i = s.i
  | .pc => t.pc = s.pc
  | .stack => ∀ k, t.slot k = s.slot k
  | .sp => t.sp = s.sp
  | .disp => ∀ px py, t.disp.pixel px py = s.disp.pixel px py
  | .keys => ∀ k, t.keyDown k = s.keyDown k
  | .dt => t.dt = s.dt
  | .st => t.st = s.st
  | .status => t.status = s.status
  | .mem => ∀ a, t.mem.peek a = s.mem.peek a
  | .cfg => t.cfg = s.cfg
  | .rndIn => t.rndIn = s.rndIn
  | .draws => t.draws = s.draws

/-- Every part but the listed ones is unchanged. -/
def SameBut (parts : List Part) (s t : State) : Prop := ∀ p, p ∉ parts → p.Same s t

/-- Every V register but the listed ones is unchanged. -/
def RegsSameBut (regs : List Nibble) (s t : State) : Prop := ∀ r, r ∉ regs → t.reg r = s.reg r

/-- A timer that no instruction wrote, after a step that ended in Advance or Set: decayed under P1, else unchanged
(40_execution_cycle.md R109). -/
def timerAfterStep (s : State) (before : Byte) : Byte :=
  if s.cfg.stepDecaysTimers then (if before = 0x00#8 then 0x00#8 else before - 0x01#8) else before

/-- Both timers as a step leaves them that did not write them (R109). -/
def TimersStepped (s t : State) : Prop := t.dt = timerAfterStep s s.dt ∧ t.st = timerAfterStep s s.st

/-- The step ended in Advance and wrote neither timer (40_execution_cycle.md R106, R109). -/
def Advanced (s t : State) : Prop := t.pc = s.pc + 2#16 ∧ TimersStepped s t

/-- `t` is `s` after an instruction that wrote `b` to Vx and nothing else, and advanced. -/
def WroteReg (s t : State) (x : Nibble) (b : Byte) : Prop :=
  t.reg x = b ∧ RegsSameBut [x] s t ∧ Advanced s t ∧ SameBut [.regs, .pc, .dt, .st] s t

/-- `t` is `s` after an instruction that wrote `b` to Vx, then the flag `f` to VF, and advanced: with x = F the flag
stays (42_alu.md R150). -/
def WroteRegAndFlag (s t : State) (x : Nibble) (b f : Byte) : Prop :=
  t.reg 0xF#4 = f ∧ (x ≠ 0xF#4 → t.reg x = b) ∧ RegsSameBut [x, 0xF#4] s t ∧ Advanced s t ∧
    SameBut [.regs, .pc, .dt, .st] s t

/-- `t` is `s` after an instruction that wrote `a` to I and nothing else, and advanced. -/
def WroteIndex (s t : State) (a : Word) : Prop :=
  t.i = a ∧ Advanced s t ∧ SameBut [.index, .pc, .dt, .st] s t

/-- `t` is `s` after an instruction that wrote `a` to pc and nothing else. -/
def WrotePc (s t : State) (a : Word) : Prop :=
  t.pc = a ∧ TimersStepped s t ∧ SameBut [.pc, .dt, .st] s t

/-- `t` is `s` after a conditional skip: pc + 4 when the condition holds, else pc + 2 (41_control_flow.md R133). -/
def Skipped (s t : State) (c : Prop) : Prop :=
  (c → WrotePc s t (s.pc + 4#16)) ∧ (¬ c → WrotePc s t (s.pc + 2#16))

/-- The core is running and the opcode at pc decodes to `i` (40_execution_cycle.md R101, R102). -/
def FetchesInstr (s : State) (i : Instr) : Prop :=
  s.status = .running ∧ s.pc.toNat ≤ 0xFFE ∧
    decode s.cfg.extMemOps (s.mem.peek s.pc.toNat ++ s.mem.peek (s.pc.toNat + 1)) = .instr i

/-- The core is running and the opcode at pc is `op`, an unknown one (40_execution_cycle.md R107). -/
def FetchesUnknown (s : State) (op : Word) : Prop :=
  s.status = .running ∧ s.pc.toNat ≤ 0xFFE ∧
    decode s.cfg.extMemOps (s.mem.peek s.pc.toNat ++ s.mem.peek (s.pc.toNat + 1)) = .unknown op

/-- The state of `s` halted by an error of an instruction with the opcode `op` (60_exceptions.md R231, R233). -/
def State.haltedAt (s : State) (code : ErrorCode) (op : Word) (addr : Option Word) : State :=
  { s with status := .halted { code := code, pc := s.pc, opcode := some op, addr := addr } }

/-- A 1 bit of the sprite lies on the pixel: bit 7 − c of row r at ((x0 + c) mod 64, (y0 + r) mod 32) (44_display.md
R191). -/
def SpriteCovers (x0 y0 : Nat) (bytes : List Byte) (px : Fin 64) (py : Fin 32) : Prop :=
  ∃ r c, r < bytes.length ∧ c < 8 ∧ px.val = (x0 + c) % 64 ∧ py.val = (y0 + r) % 32 ∧
    (bytes.getD r 0x00#8).getLsbD (7 - c) = true

/-- The V registers an instruction writes: its destinations and the flag register where R23 of 10_state.md lists the
instruction (P4 for Fx1E). -/
def writtenRegs (c : Config) : Instr → List Nibble
  | .cls | .ret | .call _ | .jp _ | .seImm _ _ | .sneImm _ _ | .seReg _ _ | .sneReg _ _ => []
  | .ldImm x _ | .addImm x _ | .ldReg x _ | .orReg x _ | .andReg x _ | .xorReg x _ => [x]
  | .addReg x _ | .sub x _ | .shr x _ | .subn x _ | .shl x _ => [x, 0xF#4]
  | .ldI _ | .jpV0 _ => []
  | .rnd x _ => [x]
  | .drw _ _ _ => [0xF#4]
  | .skp _ | .sknp _ => []
  | .ldFromDt x | .ldK x => [x]
  | .ldDt _ | .ldSt _ => []
  | .addI _ => if c.fx1eSetsVf then [0xF#4] else []
  | .ldF _ | .ldB _ | .stRegs _ => []
  | .ldRegs x => (List.range (x.toNat + 1)).map (BitVec.ofNat 4)

/-- The instructions whose rule ends in `Set` or `Block` (40_execution_cycle.md R105). -/
def mayNotAdvance : Instr → Bool
  | .ret | .call _ | .jp _ | .jpV0 _ => true
  | .seImm _ _ | .sneImm _ _ | .seReg _ _ | .sneReg _ _ | .skp _ | .sknp _ => true
  | .ldK _ => true
  | .cls | .ldImm _ _ | .addImm _ _ | .ldReg _ _ | .orReg _ _ | .andReg _ _ | .xorReg _ _ => false
  | .addReg _ _ | .sub _ _ | .shr _ _ | .subn _ _ | .shl _ _ | .ldI _ | .rnd _ _ | .drw _ _ _ => false
  | .ldFromDt _ | .ldDt _ | .ldSt _ | .addI _ | .ldF _ | .ldB _ | .stRegs _ | .ldRegs _ => false

/-- DT as the instruction leaves it before the step's decay: Fx15 writes it (45_keys_timers.md R206). -/
def dtBeforeDecay (d : Decoded) (s : State) : Byte :=
  match d with
  | .instr (.ldDt x) => s.reg x
  | _ => s.dt

/-- ST as the instruction leaves it before the step's decay: Fx18 writes it (45_keys_timers.md R207). -/
def stBeforeDecay (d : Decoded) (s : State) : Byte :=
  match d with
  | .instr (.ldSt x) => s.reg x
  | _ => s.st

/-- The opcodes 30_encoding.md R80 lists as illegal, class by class. -/
def illegalOpcode (p6 : Bool) (op : Word) : Bool :=
  let cls := op.toNat / 0x1000
  let nn := op.toNat % 0x100
  let n := op.toNat % 0x10
  (cls == 0x0 && op.toNat != 0x00E0 && op.toNat != 0x00EE) ||
  (cls == 0x5 && n != 0) ||
  (cls == 0x8 && [0x8, 0x9, 0xA, 0xB, 0xC, 0xD, 0xF].contains n) ||
  (cls == 0x9 && n != 0) ||
  (cls == 0xE && !([0x9E, 0xA1].contains nn)) ||
  (cls == 0xF && !([0x07, 0x0A, 0x15, 0x18, 0x1E, 0x29].contains nn) && !(p6 && [0x33, 0x55, 0x65].contains nn))

/-! ## The invariant -/

/-- The record is one a step can leave (60_exceptions.md R231, R232): not a LoadError, an address exactly with
AddressOutOfBounds, and no opcode only for a fetch. -/
def ErrorRecord.legal (e : ErrorRecord) : Bool :=
  match e.code with
  | .decodeError => e.opcode.isSome && e.addr.isNone
  | .stackOverflow => e.opcode.isSome && e.addr.isNone
  | .stackUnderflow => e.opcode.isSome && e.addr.isNone
  | .addressOutOfBounds => e.addr.isSome
  | .loadError => false

/-- The status agrees with pc: a halted core stands at the address its record names (60_exceptions.md R233). -/
def State.statusAgrees (s : State) : Bool :=
  match s.status with
  | .running => true
  | .halted e => e.pc == s.pc && e.legal

/-- What every step and every operation of the host keeps. -/
structure State.Inv (s : State) : Prop where
  /-- Memory is in its canonical form inside 0x000–0xFFF (20_memory.md R50). -/
  mem_wf : s.mem.wf = true
  /-- pc is at most 0x10FE (10_state.md R25). -/
  pc_le : s.pc.toNat ≤ 0x10FE
  /-- Every return address is at most 0x1000 (41_control_flow.md R131: a CALL at 0xFFE pushes 0x1000). -/
  stack_le : ∀ k : Fin 16, (s.slot k).toNat ≤ 0x1000
  /-- A halted core's record names its pc and is one of R232. -/
  status_ok : s.statusAgrees = true

/-! ## Runs -/

/-- The states some schedule of host operations leads to from a created core (40_execution_cycle.md R100). -/
inductive Reachable : State → Prop where
  | created (c : Config) (rom : Option (List Byte)) (s : State) (h : createCore c rom = .ready s) : Reachable s
  | operated (op : HostOp) (s t : State) (hs : Reachable s) (h : op.run s = .next t) : Reachable t

/-- A safe run: `n` steps that leave the core running, without a fault, a refusal or a fatal error. -/
def SafeRun (n : Nat) (s : State) : Prop := ∃ t, Sys2Proof.core.run n s = .next t ∧ t.status = .running

end Sys2Proof.Machine
end

