-- ==== Sys2Proof/Certificates/Slice0/Obligations.lean ====
section
/-!
DEFINITION. The statements for the provers. Each docstring says which rule of spec/ the statement formalises, or what
it rests on where it is derived.
-/

open Sys2Proof Sys2Proof.Machine

/-! ## Reset and the host's operations -/

/-- R260 (70_reset_and_hazards.md): `reset(rom)` leaves the font, the ROM and MEM_FILL in memory and every other
component at its value of the rule; a ROM that is too long or cannot be read is a LoadError. P5 = true is not a
configuration (R208). Rests on the spec's decisions D11, D13, D14 and D26 (log entries 3 and 19). The font's 80 bytes,
written out here from R58 (20_memory.md), glyph after glyph, are the spec's general knowledge G2 (log entry 19). -/
def Obligations.CreateLoadsFontFillAndRom : Prop :=
  let font : List Byte :=
    [0xF0#8, 0x90#8, 0x90#8, 0x90#8, 0xF0#8] ++ [0x20#8, 0x60#8, 0x20#8, 0x20#8, 0x70#8] ++
    [0xF0#8, 0x10#8, 0xF0#8, 0x80#8, 0xF0#8] ++ [0xF0#8, 0x10#8, 0xF0#8, 0x10#8, 0xF0#8] ++
    [0x90#8, 0x90#8, 0xF0#8, 0x10#8, 0x10#8] ++ [0xF0#8, 0x80#8, 0xF0#8, 0x10#8, 0xF0#8] ++
    [0xF0#8, 0x80#8, 0xF0#8, 0x90#8, 0xF0#8] ++ [0xF0#8, 0x10#8, 0x20#8, 0x40#8, 0x40#8] ++
    [0xF0#8, 0x90#8, 0xF0#8, 0x90#8, 0xF0#8] ++ [0xF0#8, 0x90#8, 0xF0#8, 0x10#8, 0xF0#8] ++
    [0xF0#8, 0x90#8, 0xF0#8, 0x90#8, 0x90#8] ++ [0xE0#8, 0x90#8, 0xE0#8, 0x90#8, 0xE0#8] ++
    [0xF0#8, 0x80#8, 0x80#8, 0x80#8, 0xF0#8] ++ [0xE0#8, 0x90#8, 0x90#8, 0x90#8, 0xE0#8] ++
    [0xF0#8, 0x80#8, 0xF0#8, 0x80#8, 0xF0#8] ++ [0xF0#8, 0x80#8, 0xF0#8, 0x80#8, 0x80#8]
  ∀ c : Config, c.fx0aOnRelease = false →
    (∀ rom : List Byte, rom.length ≤ 3584 →
      ∃ s, createCore c (some rom) = .ready s ∧
        (∀ a, a ≤ 0xFFF → s.mem.peek a =
          if a < 0x50 then font.getD a 0x00#8
          else if 0x200 ≤ a ∧ a < 0x200 + rom.length then rom.getD (a - 0x200) 0x00#8
          else c.fillByte a) ∧
        (∀ r, s.reg r = 0x00#8) ∧ s.i = 0x0000#16 ∧ s.pc = 0x0200#16 ∧ s.sp = 0 ∧ (∀ k, s.slot k = 0x0000#16) ∧
        (∀ px py, s.disp.pixel px py = false) ∧ (∀ k, s.keyDown k = false) ∧
        s.dt = 0x00#8 ∧ s.st = 0x00#8 ∧ s.status = .running ∧ s.cfg = c) ∧
    (∀ rom : List Byte, 3584 < rom.length → createCore c (some rom) = .loadError) ∧
    createCore c none = .loadError

/-- 70_reset_and_hazards.md (LoadError leaves the state unmodified, reset is the way out of Halted): the host's reset of
an existing core either leaves it as it was and reports LoadError, or makes it a fresh core of the same configuration.
That the host's draws stay the host's is the model's choice (log entry 2). Rests on the spec's decision D26 (log entry
19). -/
def Obligations.HostResetIsFreshOrLeavesStateUnmodified : Prop :=
  ∀ s : State, s.cfg.fx0aOnRelease = false →
    (hostReset none s = s ∧ (HostOp.reset none).report s = .loadError) ∧
    (∀ rom : List Byte, 3584 < rom.length →
      hostReset (some rom) s = s ∧ (HostOp.reset (some rom)).report s = .loadError) ∧
    (∀ rom : List Byte, rom.length ≤ 3584 →
      (HostOp.reset (some rom)).report s = .ok ∧
      (hostReset (some rom) s).status = .running ∧
      (hostReset (some rom) s).rndIn = s.rndIn ∧ (hostReset (some rom) s).draws = s.draws ∧
      createCore s.cfg (some rom) = .ready { hostReset (some rom) s with rndIn := [], draws := 0 })

/-- R110 (40_execution_cycle.md): one tick lowers each timer by 1 toward 0 while running and does nothing while halted.
The last clause is the spec's decision D31 (log entry 18). -/
def Obligations.TickDecaysBothTimers : Prop :=
  ∀ s : State,
    (s.status = .running →
      (tick s).dt.toNat = s.dt.toNat - 1 ∧ (tick s).st.toNat = s.st.toNat - 1 ∧ SameBut [.dt, .st] s (tick s)) ∧
    (∀ e, s.status = .halted e → tick s = s)

/-- 40_execution_cycle.md R110 with 95_test_vectors.md E9: n ticks lower a timer by n and never below 0. -/
def Obligations.RepeatedTicksReachZeroAndStay : Prop :=
  ∀ (n : Nat) (s : State), s.status = .running →
    (tick^[n] s).dt.toNat = s.dt.toNat - n ∧ (tick^[n] s).st.toNat = s.st.toNat - n ∧
      SameBut [.dt, .st] s (tick^[n] s)

/-- R111 (40_execution_cycle.md): set_key writes one key of the latch, in any status, and changes nothing else. -/
def Obligations.SetKeyWritesOneKey : Prop :=
  ∀ (s : State) (k : Nibble) (b : Bool),
    (setKey k b s).keyDown k = b ∧ (∀ j, j ≠ k → (setKey k b s).keyDown j = s.keyDown j) ∧
      SameBut [.keys] s (setKey k b s)

/-! ## The step -/

/-- 40_execution_cycle.md R101, R102: when the two bytes at pc decode to an instruction, the step is that instruction.
(The post-step rule is part of `exec`.) -/
def Obligations.StepRunsTheDecodedInstruction : Prop :=
  ∀ (s : State) (i : Instr), FetchesInstr s i → step s = exec i s

/-- R103 (40_execution_cycle.md): a fetch that is not wholly inside memory halts the core with the first byte address
outside it and no opcode; nothing else changes. Rests on the spec's decisions D15 and D28 (log entry 19). -/
def Obligations.FetchOutsideMemoryHalts : Prop :=
  ∀ s : State, s.status = .running → 0xFFE < s.pc.toNat →
    let e : ErrorRecord :=
      { code := .addressOutOfBounds, pc := s.pc, opcode := none,
        addr := some (if 0xFFF < s.pc.toNat then s.pc else s.pc + 1#16) }
    step s = .next { s with status := .halted e } ∧ stepReport s = .halted e

/-- R107 (40_execution_cycle.md): an unknown opcode is reported and skipped under P2 = Skip, and fatal under
P2 = Halt. Rests on the spec's decisions D2 and D15 (log entry 19). -/
def Obligations.DecodeErrorIsSkippedOrFatal : Prop :=
  ∀ (s : State) (op : Word), FetchesUnknown s op →
    (s.cfg.decodeErrorPolicy = .skip →
      (∃ t, step s = .next t ∧ WrotePc s t (s.pc + 2#16)) ∧ stepReport s = .decodeError op s.pc) ∧
    (s.cfg.decodeErrorPolicy = .halt →
      step s = .next (s.haltedAt .decodeError op none) ∧
      stepReport s = .halted { code := .decodeError, pc := s.pc, opcode := some op, addr := none })

/-- R108 (40_execution_cycle.md) and R234 (60_exceptions.md): a halted core is left by no step, no tick and no key, only
by reset; the record is kept and returned; set_key still writes the latch. Rests on the spec's decisions D15 and D31
(log entries 18 and 19). -/
def Obligations.HaltedCoreStaysHalted : Prop :=
  ∀ (s : State) (e : ErrorRecord), s.status = .halted e →
    step s = .next s ∧ (∀ rnd, stepWithDraw rnd s = .next s) ∧ stepReport s = .halted e ∧ tick s = s ∧
      (∀ k b, (setKey k b s).status = .halted e ∧ (setKey k b s).keyDown k = b) ∧
      ∀ (op : HostOp) (t : State), op.run s = .next t → t.status = .halted e ∨ ∃ rom, op = .reset rom

/-- R233 (60_exceptions.md): a step that halts the core changes nothing but status, and returns the record. Rests on
the spec's decisions D15 and D23 (log entry 19). -/
def Obligations.FatalErrorsArePrecise : Prop :=
  ∀ (s t : State) (e : ErrorRecord), s.status = .running → step s = .next t → t.status = .halted e →
    t = { s with status := .halted e } ∧ stepReport s = .halted e

/-- 60_exceptions.md R231, R232: which error a step can halt with, what causes it, and the record it leaves: the pc, the
opcode unless the fetch failed, and for AddressOutOfBounds the address above 0xFFF that was accessed, which for an
instruction is I + k with k below the number of bytes it transfers. Rests on the spec's decisions D12, D15 and D32 (log
entry 19). -/
def Obligations.EveryHaltHasAListedCause : Prop :=
  ∀ (s t : State) (e : ErrorRecord), s.status = .running → step s = .next t → t.status = .halted e →
    e.pc = s.pc ∧
    ((e.code = .addressOutOfBounds ∧ e.opcode = none ∧
        ∃ a : Word, e.addr = some a ∧ 0xFFF < a.toNat ∧ (a = s.pc ∨ a = s.pc + 1#16)) ∨
      (∃ op, FetchesUnknown s op ∧ s.cfg.decodeErrorPolicy = .halt ∧ e.code = .decodeError ∧ e.opcode = some op ∧
        e.addr = none) ∨
      (∃ i, FetchesInstr s i ∧ e.opcode = some (s.mem.peek s.pc.toNat ++ s.mem.peek (s.pc.toNat + 1)) ∧
        ((e.code = .stackOverflow ∧ e.addr = none ∧ s.sp.val = 16 ∧ ∃ nnn, i = .call nnn) ∨
         (e.code = .stackUnderflow ∧ e.addr = none ∧ s.sp.val = 0 ∧ i = .ret) ∨
         (e.code = .addressOutOfBounds ∧
           ∃ (a : Word) (k : Nat), e.addr = some a ∧ 0xFFF < a.toNat ∧ a.toNat = s.i.toNat + k ∧
             ((∃ x y n, i = .drw x y n ∧ k < n.toNat) ∨ (∃ x, i = .ldB x ∧ k < 3) ∨
              (∃ x, i = .stRegs x ∧ k ≤ x.toNat) ∨ ∃ x, i = .ldRegs x ∧ k ≤ x.toNat)))))

/-- R109 (40_execution_cycle.md): under P1 a step that ends in Advance or Set, a skipped decode error included, decays
both timers once after the instruction; a blocked or fatal step does not; with P1 = false no step does. That both
values of P1 exist is the spec's decision D1 (log entry 18). -/
def Obligations.StepDecaysTimersUnderP1 : Prop :=
  ∀ s t : State, s.status = .running → step s = .next t →
    (stepReport s = .blocked ∨ t.status ≠ .running → t.dt = s.dt ∧ t.st = s.st) ∧
    (stepReport s ≠ .blocked → t.status = .running →
      let d := decode s.cfg.extMemOps (s.mem.peek s.pc.toNat ++ s.mem.peek (s.pc.toNat + 1))
      t.dt = timerAfterStep s (dtBeforeDecay d s) ∧ t.st = timerAfterStep s (stBeforeDecay d s))

/-- 40_execution_cycle.md R105, R106: an instruction that is no jump, call, return, skip or key wait leaves pc + 2
whenever it leaves the core running. -/
def Obligations.StraightLineInstructionsAdvanceByTwo : Prop :=
  ∀ (i : Instr) (s t : State), mayNotAdvance i = false → exec i s = .next t → t.status = .running →
    t.pc = s.pc + 2#16

/-- Every step of a core whose configuration the spec admits (R208) has a next state: the model stops on nothing
else. Derived from 40_execution_cycle.md R101 and 60_exceptions.md R233; a fatal error being a next state is log entry
6. -/
def Obligations.EveryStepAnswersANextState : Prop :=
  ∀ s : State, s.cfg.fx0aOnRelease = false → ∃ t, step s = .next t

/-- The model's own entry (log entry 8): after `withFetchWord` places the opcode of an instruction, the next step runs
that instruction. -/
def Obligations.PlacedInstructionRunsNext : Prop :=
  ∀ (s : State) (i : Instr), s.mem.wf = true →
    step (s.withFetchWord 16 (encode i).toNat) = exec i (s.withFetchWord 16 (encode i).toNat)

/-! ## Register and arithmetic-logic instructions (42_alu.md) -/

/-- R151, R152: load and add an immediate, no flag. -/
def Obligations.LoadAndAddImmediate : Prop :=
  ∀ (s : State) (x : Nibble) (nn : Byte),
    (∃ t, exec (.ldImm x nn) s = .next t ∧ WroteReg s t x nn) ∧
    (∃ t, exec (.addImm x nn) s = .next t ∧
      WroteReg s t x (BitVec.ofNat 8 (((s.reg x).toNat + nn.toNat) % 256)))

/-- R153–R156: copy and the bitwise operations, no flag. -/
def Obligations.CopyAndBitwise : Prop :=
  ∀ (s : State) (x y : Nibble),
    (∃ t, exec (.ldReg x y) s = .next t ∧ WroteReg s t x (s.reg y)) ∧
    (∃ t, exec (.orReg x y) s = .next t ∧ WroteReg s t x (s.reg x ||| s.reg y)) ∧
    (∃ t, exec (.andReg x y) s = .next t ∧ WroteReg s t x (s.reg x &&& s.reg y)) ∧
    (∃ t, exec (.xorReg x y) s = .next t ∧ WroteReg s t x (s.reg x ^^^ s.reg y))

/-- R158: the sum modulo 256 and its carry. That the flag stays when x = F (R150) is the spec's decision D7 (log
entry 16). -/
def Obligations.AddRegistersWithCarry : Prop :=
  ∀ (s : State) (x y : Nibble),
    ∃ t, exec (.addReg x y) s = .next t ∧
      WroteRegAndFlag s t x (BitVec.ofNat 8 (((s.reg x).toNat + (s.reg y).toNat) % 256))
        (if (s.reg x).toNat + (s.reg y).toNat > 255 then 0x01#8 else 0x00#8)

/-- R159, R161: both subtractions, VF = 1 exactly when there is no borrow. x = F as in R150, the
spec's decision D7 (log entry 16). -/
def Obligations.SubtractRegistersWithNoBorrowFlag : Prop :=
  ∀ (s : State) (x y : Nibble),
    (∃ t, exec (.sub x y) s = .next t ∧
      WroteRegAndFlag s t x (BitVec.ofNat 8 (((s.reg x).toNat + 256 - (s.reg y).toNat) % 256))
        (if (s.reg x).toNat ≥ (s.reg y).toNat then 0x01#8 else 0x00#8)) ∧
    (∃ t, exec (.subn x y) s = .next t ∧
      WroteRegAndFlag s t x (BitVec.ofNat 8 (((s.reg y).toNat + 256 - (s.reg x).toNat) % 256))
        (if (s.reg y).toNat ≥ (s.reg x).toNat then 0x01#8 else 0x00#8))

/-- R160, R162: the shifts by one of Vx, or of Vy under P3, with the bit moved out in VF. Rests on the spec's decisions
D7 and D19 (log entry 16). -/
def Obligations.ShiftsMoveOneBitOut : Prop :=
  ∀ (s : State) (x y : Nibble),
    let v := (if s.cfg.shiftUsesVy then s.reg y else s.reg x).toNat
    (∃ t, exec (.shr x y) s = .next t ∧
      WroteRegAndFlag s t x (BitVec.ofNat 8 (v / 2)) (BitVec.ofNat 8 (v % 2))) ∧
    (∃ t, exec (.shl x y) s = .next t ∧
      WroteRegAndFlag s t x (BitVec.ofNat 8 (v * 2 % 256)) (BitVec.ofNat 8 (v / 128)))

/-! ## Index register and random byte (43_index_random.md) -/

/-- R180, R183: I from an address and from a hex digit. -/
def Obligations.IndexFromAddressAndGlyph : Prop :=
  ∀ (s : State) (nnn : Addr) (x : Nibble),
    (∃ t, exec (.ldI nnn) s = .next t ∧ WroteIndex s t (BitVec.ofNat 16 nnn.toNat)) ∧
    (∃ t, exec (.ldF x) s = .next t ∧ WroteIndex s t (BitVec.ofNat 16 (5 * ((s.reg x).toNat % 16))))

/-- R182: I + Vx modulo 2^16; VF only under P4, by the unwrapped sum. Rests on the spec's decisions D6 and D20
(log entry 16). -/
def Obligations.AddToIndex : Prop :=
  ∀ (s : State) (x : Nibble),
    ∃ t, exec (.addI x) s = .next t ∧
      t.i = BitVec.ofNat 16 ((s.i.toNat + (s.reg x).toNat) % 65536) ∧
      (s.cfg.fx1eSetsVf = true → t.reg 0xF#4 = if s.i.toNat + (s.reg x).toNat > 0xFFF then 0x01#8 else 0x00#8) ∧
      RegsSameBut (if s.cfg.fx1eSetsVf then [0xF#4] else []) s t ∧
      Advanced s t ∧ SameBut [.index, .regs, .pc, .dt, .st] s t

/-- R181: with the host's byte `rnd`, Cxnn writes `rnd & nn`; a step of any other instruction ignores the byte. -/
def Obligations.RandomByteIsTheHostsDrawMasked : Prop :=
  ∀ (s : State) (i : Instr) (rnd : Byte), FetchesInstr s i →
    (∀ x nn, i = .rnd x nn →
      ∃ t, stepWithDraw rnd s = .next t ∧ t.reg x = rnd &&& nn ∧ RegsSameBut [x] s t ∧ Advanced s t ∧
        SameBut [.regs, .pc, .dt, .st, .draws] s t) ∧
    ((∀ x nn, i ≠ .rnd x nn) → stepWithDraw rnd s = step s)

/-- 43_index_random.md R181 with 00_scope.md R7: where the host has handed over no byte the draw is the free value, so
every result is a sub-mask of nn and nothing more is known. The counter of the free value is the model's own (log
entry 2). -/
def Obligations.RandomByteIsAFreeDrawMasked : Prop :=
  ∀ (s : State) (x : Nibble) (nn : Byte),
    ∃ t, exec (.rnd x nn) s = .next t ∧
      (∀ r rest, s.rndIn = r :: rest → t.reg x = r &&& nn ∧ t.rndIn = rest) ∧
      (s.rndIn = [] → t.reg x = Config.freeDraw s.draws &&& nn ∧ t.rndIn = []) ∧
      t.draws = s.draws + 1 ∧ RegsSameBut [x] s t ∧ Advanced s t ∧
      SameBut [.regs, .pc, .dt, .st, .rndIn, .draws] s t

/-- 43_index_random.md R181: no instruction but Cxnn reads or consumes a draw. -/
def Obligations.OnlyRndReadsTheDraw : Prop :=
  ∀ (i : Instr) (s t : State) (q : List Byte) (k : Nat), (∀ x nn, i ≠ .rnd x nn) → exec i s = .next t →
    exec i { s with rndIn := q, draws := k } = .next { t with rndIn := q, draws := k }

/-! ## Control transfer (41_control_flow.md) -/

/-- R132: the jump. -/
def Obligations.JumpSetsPc : Prop :=
  ∀ (s : State) (nnn : Addr),
    ∃ t, exec (.jp nnn) s = .next t ∧ WrotePc s t (BitVec.ofNat 16 nnn.toNat)

/-- R137: Bnnn adds V0 and does not reduce modulo 4096, the spec's decision D5 (log entry 15). -/
def Obligations.JumpWithOffsetAddsV0 : Prop :=
  ∀ (s : State) (nnn : Addr),
    ∃ t, exec (.jpV0 nnn) s = .next t ∧ WrotePc s t (BitVec.ofNat 16 (nnn.toNat + (s.reg 0x0#4).toNat))

/-- R131: CALL pushes pc + 2 and jumps; with 16 entries it halts and changes nothing else. Rests on the spec's decisions
D3, D4 and D15 (log entries 15 and 19). -/
def Obligations.CallPushesTheNextAddress : Prop :=
  ∀ (s : State) (nnn : Addr),
    (s.sp.val < 16 →
      ∃ t, exec (.call nnn) s = .next t ∧
        t.pc = BitVec.ofNat 16 nnn.toNat ∧ t.sp.val = s.sp.val + 1 ∧
        (∀ k : Fin 16, t.slot k = if k.val = s.sp.val then s.pc + 2#16 else s.slot k) ∧
        TimersStepped s t ∧ SameBut [.pc, .sp, .stack, .dt, .st] s t) ∧
    (s.sp.val = 16 →
      exec (.call nnn) s = .next (s.haltedAt .stackOverflow (BitVec.ofNat 16 (0x2000 + nnn.toNat)) none))

/-- R130: RET pops into pc, the slot keeps its value; with no entry it halts and changes nothing else. Rests on
the spec's decisions D4 and D15 (log entries 15 and 19). -/
def Obligations.ReturnPopsIntoPc : Prop :=
  ∀ s : State,
    (∀ k : Fin 16, s.sp.val = k.val + 1 →
      ∃ t, exec .ret s = .next t ∧ t.pc = s.slot k ∧ t.sp.val = k.val ∧ TimersStepped s t ∧
        SameBut [.pc, .sp, .dt, .st] s t) ∧
    (s.sp.val = 0 → exec .ret s = .next (s.haltedAt .stackUnderflow 0x00EE#16 none))

/-- 41_control_flow.md R130, R131 with 95_test_vectors.md E5: a RET right after a CALL resumes after the CALL with the
stack pointer as it was. What CALL pushes is the spec's decision D3 (log entry 15). -/
def Obligations.ReturnUndoesCall : Prop :=
  ∀ (s t : State) (nnn : Addr), s.sp.val < 16 → exec (.call nnn) s = .next t →
    ∃ u, exec .ret t = .next u ∧ u.pc = s.pc + 2#16 ∧ u.sp = s.sp ∧
      (∀ k : Fin 16, k.val < s.sp.val → u.slot k = s.slot k) ∧ SameBut [.pc, .stack, .dt, .st] s u

/-- R133–R136: the register skips. -/
def Obligations.SkipsCompareRegisters : Prop :=
  ∀ (s : State) (x y : Nibble) (nn : Byte),
    (∃ t, exec (.seImm x nn) s = .next t ∧ Skipped s t (s.reg x = nn)) ∧
    (∃ t, exec (.sneImm x nn) s = .next t ∧ Skipped s t (s.reg x ≠ nn)) ∧
    (∃ t, exec (.seReg x y) s = .next t ∧ Skipped s t (s.reg x = s.reg y)) ∧
    (∃ t, exec (.sneReg x y) s = .next t ∧ Skipped s t (s.reg x ≠ s.reg y))

/-! ## Display (44_display.md) -/

/-- R190: CLS makes every pixel false and changes nothing else. -/
def Obligations.ClearScreen : Prop :=
  ∀ s : State,
    ∃ t, exec .cls s = .next t ∧ (∀ px py, t.disp.pixel px py = false) ∧ Advanced s t ∧
      SameBut [.disp, .pc, .dt, .st] s t

/-- 44_display.md R191: DRW inverts exactly the pixels the sprite's 1 bits lie on, VF tells whether one of them was
true, and a sprite that leaves memory halts the core. (The rule's remark on the second of two draws is not stated: log
entry 14.) Rests on the spec's decisions D8, D22 and D23 and its bit order G3 (log entry 17). -/
def Obligations.DrawInvertsTheSpritesPixels : Prop :=
  ∀ (s : State) (x y n : Nibble),
    let bytes := (List.range n.toNat).map fun r => s.mem.peek (s.i.toNat + r)
    let covers := SpriteCovers ((s.reg x).toNat % 64) ((s.reg y).toNat % 32) bytes
    (n.toNat = 0 ∨ s.i.toNat + n.toNat ≤ 0x1000 →
      ∃ t, exec (.drw x y n) s = .next t ∧
        (∀ px py, covers px py → t.disp.pixel px py = !s.disp.pixel px py) ∧
        (∀ px py, ¬ covers px py → t.disp.pixel px py = s.disp.pixel px py) ∧
        ((∃ px py, covers px py ∧ s.disp.pixel px py = true) → t.reg 0xF#4 = 0x01#8) ∧
        ((¬ ∃ px py, covers px py ∧ s.disp.pixel px py = true) → t.reg 0xF#4 = 0x00#8) ∧
        RegsSameBut [0xF#4] s t ∧ Advanced s t ∧ SameBut [.disp, .regs, .pc, .dt, .st] s t) ∧
    (¬ (n.toNat = 0 ∨ s.i.toNat + n.toNat ≤ 0x1000) →
      exec (.drw x y n) s = .next (s.haltedAt .addressOutOfBounds
        (BitVec.ofNat 16 (0xD000 + x.toNat * 256 + y.toNat * 16 + n.toNat))
        (some (BitVec.ofNat 16 (if 0xFFF < s.i.toNat then s.i.toNat else 0x1000)))))

/-- 44_display.md R191 (XOR is self-inverse): drawing the same sprite twice at the same place restores the display; the
second draw's VF is 1 exactly when the first draw set a pixel. That VF clause is the model's reading, the rule's
pseudocode and not its remark on the second draw (log entry 14, DEDUCED). With x = F or y = F the first draw's VF can move
the place of the second; DrawInvertsTheSpritesPixels says what each draw then does. -/
def Obligations.DrawingTwiceRestoresTheDisplay : Prop :=
  ∀ (s t u : State) (x y n : Nibble), x ≠ 0xF#4 → y ≠ 0xF#4 →
    n.toNat = 0 ∨ s.i.toNat + n.toNat ≤ 0x1000 →
    exec (.drw x y n) s = .next t → exec (.drw x y n) t = .next u →
    (∀ px py, u.disp.pixel px py = s.disp.pixel px py) ∧
    (u.reg 0xF#4 = 0x01#8 ↔ ∃ px py, s.disp.pixel px py = false ∧ t.disp.pixel px py = true)

/-- 10_state.md R30: only 00E0 and Dxyn write the display. -/
def Obligations.OnlyClsAndDrwWriteTheDisplay : Prop :=
  ∀ (i : Instr) (s t : State), i ≠ .cls → (∀ x y n, i ≠ .drw x y n) → exec i s = .next t → t.disp = s.disp

/-! ## Keys and timers (45_keys_timers.md) -/

/-- R200, R201: the key skips; that the key is the low nibble of Vx is the spec's decision D9 (log entry 18). -/
def Obligations.SkipsTestAKey : Prop :=
  ∀ (s : State) (x : Nibble),
    let down := s.keyDown (BitVec.ofNat 4 ((s.reg x).toNat % 16)) = true
    (∃ t, exec (.skp x) s = .next t ∧ Skipped s t down) ∧
    (∃ t, exec (.sknp x) s = .next t ∧ Skipped s t (¬ down))

/-- R203, R204: Fx0A stores the lowest pressed key, the spec's decision D10 (log entry 18), or blocks and changes nothing at
all. -/
def Obligations.KeyWaitStoresTheLowestKey : Prop :=
  ∀ (s : State) (x : Nibble), s.cfg.fx0aOnRelease = false →
    (∀ k : Nibble, s.keyDown k = true → (∀ j : Nibble, j.toNat < k.toNat → s.keyDown j = false) →
      ∃ t, exec (.ldK x) s = .next t ∧ WroteReg s t x (BitVec.ofNat 8 k.toNat)) ∧
    ((∀ k, s.keyDown k = false) → exec (.ldK x) s = .next s)

/-- 45_keys_timers.md R205: a blocked step changes nothing, reports Blocked, repeats identically, and a tick between two
of them decays the timers; the host ends the wait by setting a key. -/
def Obligations.BlockedStepRepeatsUntilAKeyIsSet : Prop :=
  ∀ (s : State) (x : Nibble), s.cfg.fx0aOnRelease = false → FetchesInstr s (.ldK x) →
    (∀ k, s.keyDown k = false) →
    step s = .next s ∧ stepReport s = .blocked ∧
    step (tick s) = .next (tick s) ∧ stepReport (tick s) = .blocked ∧
    ∀ k, ∃ t, step (setKey k true s) = .next t ∧ t.reg x = BitVec.ofNat 8 k.toNat ∧ t.pc = s.pc + 2#16

/-- R208: P5 = true is refused, when a core is created and by Fx0A itself. The refusal is the spec's decision D11; that
it falls on these two is the model's reading (log entry 3). -/
def Obligations.KeyWaitOnReleaseIsRefused : Prop :=
  (∀ (c : Config) (rom : Option (List Byte)), c.fx0aOnRelease = true → createCore c rom = .refused .fx0aOnRelease) ∧
  ∀ (s : State) (x : Nibble), s.cfg.fx0aOnRelease = true → exec (.ldK x) s = .refused .fx0aOnRelease

/-- 45_keys_timers.md R202, R206, R207: reading DT, writing DT, writing ST. That the step's decay follows under P1 is what
the spec derives from R109 (40_execution_cycle.md), its decision D1 (log entry 18). -/
def Obligations.TimerReadsAndWrites : Prop :=
  ∀ (s : State) (x : Nibble),
    (∃ t, exec (.ldFromDt x) s = .next t ∧ WroteReg s t x s.dt) ∧
    (∃ t, exec (.ldDt x) s = .next t ∧ t.dt = timerAfterStep s (s.reg x) ∧ t.st = timerAfterStep s s.st ∧
      t.pc = s.pc + 2#16 ∧ SameBut [.pc, .dt, .st] s t) ∧
    (∃ t, exec (.ldSt x) s = .next t ∧ t.st = timerAfterStep s (s.reg x) ∧ t.dt = timerAfterStep s s.dt ∧
      (soundActive t = true ↔ 0 < (timerAfterStep s (s.reg x)).toNat) ∧
      t.pc = s.pc + 2#16 ∧ SameBut [.pc, .dt, .st] s t)

/-- 10_state.md R33: no instruction reads ST; two states that differ in ST alone go to states that differ in ST
alone. -/
def Obligations.NoInstructionReadsTheSoundTimer : Prop :=
  ∀ (i : Instr) (s t : State) (b : Byte), exec i s = .next t →
    ∃ b', exec i { s with st := b } = .next { t with st := b' }

/-- 10_state.md R31: only Ex9E, ExA1 and Fx0A read the input latch. -/
def Obligations.OnlyKeyInstructionsReadTheLatch : Prop :=
  ∀ (i : Instr) (s t : State) (q : Vector Bool 16),
    (∀ x, i ≠ .skp x) → (∀ x, i ≠ .sknp x) → (∀ x, i ≠ .ldK x) → exec i s = .next t →
    exec i { s with key := q } = .next { t with key := q }

/-! ## Memory transfer (46_ext_memory.md) -/

/-- R220: the three decimal digits of Vx at I, I + 1, I + 2, or the error before any write. Rests on the
spec's decisions D17, D23 and D27 (log entry 19). -/
def Obligations.StoreDecimalDigits : Prop :=
  ∀ (s : State) (x : Nibble), s.mem.wf = true →
    (s.i.toNat + 3 ≤ 0x1000 →
      ∃ t, exec (.ldB x) s = .next t ∧
        t.mem.peek s.i.toNat = BitVec.ofNat 8 ((s.reg x).toNat / 100) ∧
        t.mem.peek (s.i.toNat + 1) = BitVec.ofNat 8 ((s.reg x).toNat / 10 % 10) ∧
        t.mem.peek (s.i.toNat + 2) = BitVec.ofNat 8 ((s.reg x).toNat % 10) ∧
        (∀ a, a < s.i.toNat ∨ s.i.toNat + 3 ≤ a → t.mem.peek a = s.mem.peek a) ∧
        Advanced s t ∧ SameBut [.mem, .pc, .dt, .st] s t) ∧
    (¬ s.i.toNat + 3 ≤ 0x1000 →
      exec (.ldB x) s = .next (s.haltedAt .addressOutOfBounds (BitVec.ofNat 16 (0xF033 + x.toNat * 256))
        (some (BitVec.ofNat 16 (if 0xFFF < s.i.toNat then s.i.toNat else 0x1000)))))

/-- R221: V0..Vx stored from I on, or the error before any write; I moves past them only under P7. Rests on the
spec's decisions D17, D18 and D23 (log entry 19). -/
def Obligations.StoreRegisters : Prop :=
  ∀ (s : State) (x : Nibble), s.mem.wf = true →
    (s.i.toNat + x.toNat + 1 ≤ 0x1000 →
      ∃ t, exec (.stRegs x) s = .next t ∧
        (∀ k : Nibble, k.toNat ≤ x.toNat → t.mem.peek (s.i.toNat + k.toNat) = s.reg k) ∧
        (∀ a, a < s.i.toNat ∨ s.i.toNat + x.toNat + 1 ≤ a → t.mem.peek a = s.mem.peek a) ∧
        t.i = (if s.cfg.loadStoreIncrementsI then BitVec.ofNat 16 ((s.i.toNat + x.toNat + 1) % 65536) else s.i) ∧
        Advanced s t ∧ SameBut [.mem, .index, .pc, .dt, .st] s t) ∧
    (¬ s.i.toNat + x.toNat + 1 ≤ 0x1000 →
      exec (.stRegs x) s = .next (s.haltedAt .addressOutOfBounds (BitVec.ofNat 16 (0xF055 + x.toNat * 256))
        (some (BitVec.ofNat 16 (if 0xFFF < s.i.toNat then s.i.toNat else 0x1000)))))

/-- R222: V0..Vx loaded from I on, or the error before any register is written; I moves past them only under P7.
Rests on the spec's decisions D17, D18 and D23 (log entry 19). -/
def Obligations.LoadRegisters : Prop :=
  ∀ (s : State) (x : Nibble),
    (s.i.toNat + x.toNat + 1 ≤ 0x1000 →
      ∃ t, exec (.ldRegs x) s = .next t ∧
        (∀ k : Nibble, t.reg k = if k.toNat ≤ x.toNat then s.mem.peek (s.i.toNat + k.toNat) else s.reg k) ∧
        t.i = (if s.cfg.loadStoreIncrementsI then BitVec.ofNat 16 ((s.i.toNat + x.toNat + 1) % 65536) else s.i) ∧
        Advanced s t ∧ SameBut [.regs, .index, .pc, .dt, .st] s t) ∧
    (¬ s.i.toNat + x.toNat + 1 ≤ 0x1000 →
      exec (.ldRegs x) s = .next (s.haltedAt .addressOutOfBounds (BitVec.ofNat 16 (0xF065 + x.toNat * 256))
        (some (BitVec.ofNat 16 (if 0xFFF < s.i.toNat then s.i.toNat else 0x1000)))))

/-! ## What no instruction does -/

/-- 20_memory.md R53, R55: with P6 = false no step writes memory. -/
def Obligations.NoStepWritesMemoryWithoutP6 : Prop :=
  ∀ s t : State, s.cfg.extMemOps = false → step s = .next t → t.mem = s.mem

/-- 10_state.md R31, R36: no step writes the input latch or a parameter. -/
def Obligations.NoStepWritesKeysOrParameters : Prop :=
  ∀ s t : State, step s = .next t → t.key = s.key ∧ t.cfg = s.cfg

/-- 10_state.md R26: only 2nnn writes a stack slot, and only 2nnn and 00EE move sp. -/
def Obligations.OnlyCallAndReturnTouchTheStack : Prop :=
  ∀ (i : Instr) (s t : State), (∀ nnn, i ≠ .call nnn) → exec i s = .next t →
    t.stack = s.stack ∧ (i ≠ .ret → t.sp = s.sp)

/-- 10_state.md R24: I is written only by Annn, Fx1E, Fx29 and, under P7, Fx55 and Fx65. -/
def Obligations.IndexIsWrittenOnlyByItsInstructions : Prop :=
  ∀ (i : Instr) (s t : State), (∀ nnn, i ≠ .ldI nnn) → (∀ x, i ≠ .addI x) → (∀ x, i ≠ .ldF x) →
    (s.cfg.loadStoreIncrementsI = true → (∀ x, i ≠ .stRegs x) ∧ ∀ x, i ≠ .ldRegs x) →
    exec i s = .next t → t.i = s.i

/-- 10_state.md R21, R23: an instruction writes its destination and, where R23 lists it, VF; every other register is
unchanged. -/
def Obligations.InstructionsWriteOnlyTheirRegisters : Prop :=
  ∀ (i : Instr) (s t : State), exec i s = .next t → RegsSameBut (writtenRegs s.cfg i) s t

/-! ## Encoding (30_encoding.md) -/

/-- 30_encoding.md R72–R79: every instruction the machine has decodes from its opcode, with every operand at every
value. -/
def Obligations.DecodeOfEncodeIsTheInstruction : Prop :=
  ∀ (p6 : Bool) (i : Instr), i.wellFormed p6 = true → decode p6 (encode i) = .instr i

/-- 30_encoding.md R73, R77: what an opcode decodes to encodes to that opcode again, and is an instruction the machine
has. -/
def Obligations.EncodeOfDecodeIsTheOpcode : Prop :=
  ∀ (p6 : Bool) (op : Word) (i : Instr), decode p6 op = .instr i → encode i = op ∧ i.wellFormed p6 = true

/-- 30_encoding.md R80: the opcodes that decode to Unknown are exactly the listed ones, and each is reported as it
stands. Which sub-opcodes are illegal is the spec's decision D12 (log entry 19). -/
def Obligations.UnknownOpcodesAreExactlyTheListed : Prop :=
  ∀ (p6 : Bool) (op : Word), decode p6 op = .unknown op ↔ illegalOpcode p6 op = true

/-- 30_encoding.md R76, R77: no opcode lies in the rows of two instructions, and the rows are what `decode` follows: what
an opcode decodes to has the opcode in its row, and an opcode of a row decodes to an instruction of that row.
`Instr.ctorIdx` is Lean's own number of an instruction's constructor, so equal numbers mean the same row of R76's table.
The patterns are the spec's general knowledge G1 and its decision D12 (log entry 19). -/
def Obligations.OpcodeRowsDoNotOverlap : Prop :=
  (∀ (i j : Instr) (op : Word), i.row.covers op = true → j.row.covers op = true → i.ctorIdx = j.ctorIdx) ∧
  (∀ (i : Instr) (op : Word), decode true op = .instr i → i.row.covers op = true) ∧
  ∀ (i : Instr) (op : Word), i.row.covers op = true → ∃ j, decode true op = .instr j ∧ j.ctorIdx = i.ctorIdx

/-- Words of 95_test_vectors.md, written out there from R76, decode to the instructions they stand for. -/
def Obligations.VectorWordsDecode : Prop :=
  decode false 0x600A#16 = .instr (.ldImm 0x0#4 0x0A#8) ∧
  decode false 0x7005#16 = .instr (.addImm 0x0#4 0x05#8) ∧
  decode false 0x2210#16 = .instr (.call 0x210#12) ∧
  decode false 0x8F14#16 = .instr (.addReg 0xF#4 0x1#4) ∧
  decode false 0xD125#16 = .instr (.drw 0x1#4 0x2#4 0x5#4) ∧
  decode false 0xE19E#16 = .instr (.skp 0x1#4) ∧
  decode false 0xF21E#16 = .instr (.addI 0x2#4) ∧
  decode true 0xF155#16 = .instr (.stRegs 0x1#4) ∧
  decode false 0xF155#16 = .unknown 0xF155#16

/-! ## Invariants -/

/-- The machine after reset meets the invariant. -/
def Obligations.ResetMeetsTheInvariant : Prop := State.reset.Inv

/-- 70_reset_and_hazards.md R260: every core the host creates meets the invariant. -/
def Obligations.CreatedCoresMeetTheInvariant : Prop :=
  ∀ (c : Config) (rom : Option (List Byte)) (s : State), createCore c rom = .ready s → s.Inv

/-- 20_memory.md R50, 10_state.md R25, 41_control_flow.md R131, 60_exceptions.md R231–R233: every step keeps memory in
its canonical form inside 4096 bytes, pc at most 0x10FE, every return address at most 0x1000, and a halted core's
record in agreement with its pc. -/
def Obligations.StepKeepsTheInvariant : Prop :=
  ∀ s t : State, s.Inv → step s = .next t → t.Inv

/-- 40_execution_cycle.md R100: every operation of the host keeps the invariant. -/
def Obligations.HostOperationsKeepTheInvariant : Prop :=
  ∀ (op : HostOp) (s t : State), s.Inv → op.run s = .next t → t.Inv

/-- 40_execution_cycle.md R100, 70_reset_and_hazards.md R272: whatever operations the host calls, in any order, every
state the core comes to meets the invariant. -/
def Obligations.EveryScheduleMeetsTheInvariant : Prop :=
  ∀ s : State, Reachable s → s.Inv
end

