-- ==== Sys2Proof/Laws/Decode.lean ====
section
/-!
SUPPORT. The fields of each format (30_encoding.md R72, R74), by their values as numbers.
-/

namespace Sys2Proof

/-! ## Fields and formats as numbers -/

/-- The value of a concatenation. -/
theorem append_toNat {n m : Nat} (a : BitVec n) (b : BitVec m) :
    (a ++ b).toNat = a.toNat * 2 ^ m + b.toNat := by
  rw [BitVec.toNat_append, ← Nat.shiftLeft_add_eq_or_of_lt b.isLt, Nat.shiftLeft_eq]

theorem opClass_toNat (op : Word) : (opClass op).toNat = op.toNat / 4096 % 16 := by
  simp [opClass, BitVec.extractLsb'_toNat, Nat.shiftRight_eq_div_pow]

theorem fieldX_toNat (op : Word) : (fieldX op).toNat = op.toNat / 256 % 16 := by
  simp [fieldX, BitVec.extractLsb'_toNat, Nat.shiftRight_eq_div_pow]

theorem fieldY_toNat (op : Word) : (fieldY op).toNat = op.toNat / 16 % 16 := by
  simp [fieldY, BitVec.extractLsb'_toNat, Nat.shiftRight_eq_div_pow]

theorem fieldN_toNat (op : Word) : (fieldN op).toNat = op.toNat % 16 := by
  simp [fieldN, BitVec.extractLsb'_toNat, Nat.shiftRight_eq_div_pow]

theorem fieldNN_toNat (op : Word) : (fieldNN op).toNat = op.toNat % 256 := by
  simp [fieldNN, BitVec.extractLsb'_toNat, Nat.shiftRight_eq_div_pow]

theorem fieldNNN_toNat (op : Word) : (fieldNNN op).toNat = op.toNat % 4096 := by
  simp [fieldNNN, BitVec.extractLsb'_toNat, Nat.shiftRight_eq_div_pow]

theorem formatA_toNat (c : Nibble) (nnn : Addr) : (formatA c nnn).toNat = c.toNat * 4096 + nnn.toNat := by
  show (c ++ nnn).toNat = _
  simp only [append_toNat]
  omega

theorem formatXNN_toNat (c x : Nibble) (nn : Byte) : (formatXNN c x nn).toNat = c.toNat * 4096 + x.toNat * 256 + nn.toNat := by
  show (c ++ x ++ nn).toNat = _
  simp only [append_toNat]
  omega

theorem formatX_toNat (c x : Nibble) (f : Byte) : (formatX c x f).toNat = c.toNat * 4096 + x.toNat * 256 + f.toNat := by
  show (c ++ x ++ f).toNat = _
  simp only [append_toNat]
  omega

theorem formatXY_toNat (c x y f : Nibble) : (formatXY c x y f).toNat = c.toNat * 4096 + x.toNat * 256 + y.toNat * 16 + f.toNat := by
  show (c ++ x ++ y ++ f).toNat = _
  simp only [append_toNat]
  omega

theorem formatXYN_toNat (c x y n : Nibble) : (formatXYN c x y n).toNat = c.toNat * 4096 + x.toNat * 256 + y.toNat * 16 + n.toNat := by
  show (c ++ x ++ y ++ n).toNat = _
  simp only [append_toNat]
  omega

/-! ## Fields of the formats -/

@[simp] theorem opClass_formatA (c : Nibble) (nnn : Addr) : opClass (formatA c nnn) = c := by
  apply BitVec.eq_of_toNat_eq
  rw [opClass_toNat, formatA_toNat]
  have := c.isLt; have := nnn.isLt
  omega

@[simp] theorem fieldNNN_formatA (c : Nibble) (nnn : Addr) : fieldNNN (formatA c nnn) = nnn := by
  apply BitVec.eq_of_toNat_eq
  rw [fieldNNN_toNat, formatA_toNat]
  have := c.isLt; have := nnn.isLt
  omega

@[simp] theorem opClass_formatXNN (c x : Nibble) (nn : Byte) : opClass (formatXNN c x nn) = c := by
  apply BitVec.eq_of_toNat_eq
  rw [opClass_toNat, formatXNN_toNat]
  have := c.isLt; have := x.isLt; have := nn.isLt
  omega

@[simp] theorem fieldX_formatXNN (c x : Nibble) (nn : Byte) : fieldX (formatXNN c x nn) = x := by
  apply BitVec.eq_of_toNat_eq
  rw [fieldX_toNat, formatXNN_toNat]
  have := c.isLt; have := x.isLt; have := nn.isLt
  omega

@[simp] theorem fieldNN_formatXNN (c x : Nibble) (nn : Byte) : fieldNN (formatXNN c x nn) = nn := by
  apply BitVec.eq_of_toNat_eq
  rw [fieldNN_toNat, formatXNN_toNat]
  have := c.isLt; have := x.isLt; have := nn.isLt
  omega

@[simp] theorem opClass_formatX (c x : Nibble) (f : Byte) : opClass (formatX c x f) = c := by
  apply BitVec.eq_of_toNat_eq
  rw [opClass_toNat, formatX_toNat]
  have := c.isLt; have := x.isLt; have := f.isLt
  omega

@[simp] theorem fieldX_formatX (c x : Nibble) (f : Byte) : fieldX (formatX c x f) = x := by
  apply BitVec.eq_of_toNat_eq
  rw [fieldX_toNat, formatX_toNat]
  have := c.isLt; have := x.isLt; have := f.isLt
  omega

@[simp] theorem fieldNN_formatX (c x : Nibble) (f : Byte) : fieldNN (formatX c x f) = f := by
  apply BitVec.eq_of_toNat_eq
  rw [fieldNN_toNat, formatX_toNat]
  have := c.isLt; have := x.isLt; have := f.isLt
  omega

@[simp] theorem opClass_formatXY (c x y f : Nibble) : opClass (formatXY c x y f) = c := by
  apply BitVec.eq_of_toNat_eq
  rw [opClass_toNat, formatXY_toNat]
  have := c.isLt; have := x.isLt; have := y.isLt; have := f.isLt
  omega

@[simp] theorem fieldX_formatXY (c x y f : Nibble) : fieldX (formatXY c x y f) = x := by
  apply BitVec.eq_of_toNat_eq
  rw [fieldX_toNat, formatXY_toNat]
  have := c.isLt; have := x.isLt; have := y.isLt; have := f.isLt
  omega

@[simp] theorem fieldY_formatXY (c x y f : Nibble) : fieldY (formatXY c x y f) = y := by
  apply BitVec.eq_of_toNat_eq
  rw [fieldY_toNat, formatXY_toNat]
  have := c.isLt; have := x.isLt; have := y.isLt; have := f.isLt
  omega

@[simp] theorem fieldN_formatXY (c x y f : Nibble) : fieldN (formatXY c x y f) = f := by
  apply BitVec.eq_of_toNat_eq
  rw [fieldN_toNat, formatXY_toNat]
  have := c.isLt; have := x.isLt; have := y.isLt; have := f.isLt
  omega

@[simp] theorem opClass_formatXYN (c x y n : Nibble) : opClass (formatXYN c x y n) = c := by
  apply BitVec.eq_of_toNat_eq
  rw [opClass_toNat, formatXYN_toNat]
  have := c.isLt; have := x.isLt; have := y.isLt; have := n.isLt
  omega

@[simp] theorem fieldX_formatXYN (c x y n : Nibble) : fieldX (formatXYN c x y n) = x := by
  apply BitVec.eq_of_toNat_eq
  rw [fieldX_toNat, formatXYN_toNat]
  have := c.isLt; have := x.isLt; have := y.isLt; have := n.isLt
  omega

@[simp] theorem fieldY_formatXYN (c x y n : Nibble) : fieldY (formatXYN c x y n) = y := by
  apply BitVec.eq_of_toNat_eq
  rw [fieldY_toNat, formatXYN_toNat]
  have := c.isLt; have := x.isLt; have := y.isLt; have := n.isLt
  omega

@[simp] theorem fieldN_formatXYN (c x y n : Nibble) : fieldN (formatXYN c x y n) = n := by
  apply BitVec.eq_of_toNat_eq
  rw [fieldN_toNat, formatXYN_toNat]
  have := c.isLt; have := x.isLt; have := y.isLt; have := n.isLt
  omega

/-! ## Bits of the formats, and the masks of the opcode table -/

theorem formatA_getLsbD (c : Nibble) (nnn : Addr) (i : Nat) :
    (formatA c nnn).getLsbD i = if i < 12 then nnn.getLsbD i else c.getLsbD (i - 12) := by
  show (c ++ nnn).getLsbD i = _
  rw [BitVec.getLsbD_append]

theorem formatXNN_getLsbD (c x : Nibble) (nn : Byte) (i : Nat) :
    (formatXNN c x nn).getLsbD i =
      if i < 8 then nn.getLsbD i else if i - 8 < 4 then x.getLsbD (i - 8) else c.getLsbD (i - 8 - 4) := by
  show (c ++ x ++ nn).getLsbD i = _
  rw [BitVec.getLsbD_append, BitVec.getLsbD_append]

theorem formatXY_getLsbD (c x y f : Nibble) (i : Nat) :
    (formatXY c x y f).getLsbD i =
      if i < 4 then f.getLsbD i else if i - 4 < 4 then y.getLsbD (i - 4)
      else if i - 4 - 4 < 4 then x.getLsbD (i - 4 - 4) else c.getLsbD (i - 4 - 4 - 4) := by
  show (c ++ x ++ y ++ f).getLsbD i = _
  rw [BitVec.getLsbD_append, BitVec.getLsbD_append, BitVec.getLsbD_append]

/-- The mask of formats A, XNN and XYN keeps the class. -/
theorem and_classMask (op : Word) : op &&& 0xF000#16 = formatA (opClass op) 0x000#12 := by
  apply BitVec.eq_of_getLsbD_eq
  intro i hi
  rw [formatA_getLsbD, BitVec.getLsbD_and, opClass, BitVec.getLsbD_extractLsb']
  interval_cases i <;> simp

/-- The mask of format XY keeps the class and the low nibble. -/
theorem and_nibbleMask (op : Word) : op &&& 0xF00F#16 = formatXY (opClass op) 0x0#4 0x0#4 (fieldN op) := by
  apply BitVec.eq_of_getLsbD_eq
  intro i hi
  rw [formatXY_getLsbD, BitVec.getLsbD_and, opClass, fieldN, BitVec.getLsbD_extractLsb', BitVec.getLsbD_extractLsb']
  interval_cases i <;> simp

/-- The mask of format X keeps the class and the low byte. -/
theorem and_byteMask (op : Word) : op &&& 0xF0FF#16 = formatXNN (opClass op) 0x0#4 (fieldNN op) := by
  apply BitVec.eq_of_getLsbD_eq
  intro i hi
  rw [formatXNN_getLsbD, BitVec.getLsbD_and, opClass, fieldNN, BitVec.getLsbD_extractLsb', BitVec.getLsbD_extractLsb']
  interval_cases i <;> simp

end Sys2Proof
end

