-- ==== Sys2Proof/Laws/Memory.lean ====
section
/-!
SUPPORT. The laws of memory: read after write, and that every memory operation keeps the canonical form.
-/

namespace Sys2Proof.Machine

/-- An address below the first listed one reads as unlisted. -/
theorem Memory.peek_below (m : Memory) (a lo : Nat) (ha : a < lo) (h : Memory.wfFrom lo m = true) :
    m.peek a = Memory.unlisted a := by
  induction m generalizing lo with
  | nil => rfl
  | cons c rest ih =>
    simp only [Memory.wfFrom, Bool.and_eq_true, decide_eq_true_eq] at h
    have hne : ¬ a = c.1 := by omega
    simp only [Memory.peek, hne, if_false]
    exact ih (c.1 + 1) (by omega) h.2

/-- A canonical form from `lo` on is one from any lower address on. -/
theorem Memory.wfFrom_mono (m : Memory) (lo lo' : Nat) (hl : lo' ≤ lo) (h : Memory.wfFrom lo m = true) :
    Memory.wfFrom lo' m = true := by
  cases m with
  | nil => rfl
  | cons c rest =>
    simp only [Memory.wfFrom, Bool.and_eq_true, decide_eq_true_eq] at h ⊢
    exact ⟨⟨⟨by omega, h.1.1.2⟩, h.1.2⟩, h.2⟩

/-- Reading a byte after writing one. -/
theorem Memory.peek_poke_from (m : Memory) (a b : Nat) (v : Byte) (lo : Nat) (h : Memory.wfFrom lo m = true) :
    (m.poke a v).peek b = if b = a then v else m.peek b := by
  induction m generalizing lo with
  | nil =>
    simp only [Memory.poke]
    split
    · next h1 => by_cases hb : b = a <;> simp [Memory.peek, hb, h1]
    · simp [Memory.peek]
  | cons c rest ih =>
    obtain ⟨c1, w⟩ := c
    have hc := h
    simp only [Memory.wfFrom, Bool.and_eq_true, decide_eq_true_eq] at h
    have hi := ih (c1 + 1) h.2
    simp only [Memory.poke]
    rcases Nat.lt_trichotomy a c1 with h1 | h1 | h1
    · simp only [h1, if_true]
      split
      · next h2 =>
        by_cases hb : b = a
        · simp only [hb, if_true, h2]
          exact Memory.peek_below _ a c1 h1 (by simp [Memory.wfFrom, h.1.1.2, h.1.2, h.2])
        · simp [hb]
      · by_cases hb : b = a <;> simp [Memory.peek, hb]
    · subst h1
      simp only [Nat.lt_irrefl, if_false, if_true]
      split
      · next h3 =>
        by_cases hb : b = a
        · simp only [hb, if_true, h3]
          exact Memory.peek_below rest a (a + 1) (by omega) h.2
        · simp [Memory.peek, hb]
      · by_cases hb : b = a <;> simp [Memory.peek, hb]
    · have h2 : ¬ a < c1 := by omega
      have h3 : ¬ a = c1 := by omega
      simp only [h2, h3, if_false, Memory.peek, hi]
      by_cases hb : b = c1
      · have : ¬ c1 = a := by omega
        simp [hb, this]
      · simp [hb]

/-- Reading a byte after writing one, of a canonical memory. -/
theorem Memory.peek_poke (m : Memory) (a b : Nat) (v : Byte) (h : m.wf = true) :
    (m.poke a v).peek b = if b = a then v else m.peek b :=
  Memory.peek_poke_from m a b v 0 h

/-- A write inside memory keeps the canonical form. -/
theorem Memory.wfFrom_poke (m : Memory) (a lo : Nat) (v : Byte) (hlo : lo ≤ a) (ha : a ≤ 0xFFF)
    (h : Memory.wfFrom lo m = true) : Memory.wfFrom lo (m.poke a v) = true := by
  induction m generalizing lo with
  | nil =>
    simp only [Memory.poke]
    split
    · rfl
    · next h1 => simp [Memory.wfFrom, hlo, ha, h1]
  | cons c rest ih =>
    obtain ⟨c1, w⟩ := c
    have hc := h
    simp only [Memory.wfFrom, Bool.and_eq_true, decide_eq_true_eq] at h
    simp only [Memory.poke]
    rcases Nat.lt_trichotomy a c1 with h1 | h1 | h1
    · simp only [h1, if_true]
      split
      · exact hc
      · next h2 =>
        have h3 : a + 1 ≤ c1 := h1
        simp [Memory.wfFrom, hlo, ha, h2, h3, h.1.1.2, h.1.2, h.2]
    · subst h1
      simp only [Nat.lt_irrefl, if_false, if_true]
      split
      · exact Memory.wfFrom_mono rest (a + 1) lo (by omega) h.2
      · next h2 => simp [Memory.wfFrom, hlo, ha, h2, h.2]
    · have h2 : ¬ a < c1 := by omega
      have h3 : ¬ a = c1 := by omega
      simp only [h2, h3, if_false, Memory.wfFrom, Bool.and_eq_true, decide_eq_true_eq]
      exact ⟨h.1, ih (c1 + 1) h1 h.2⟩

/-- A write inside memory keeps the canonical form. -/
theorem Memory.wf_poke (m : Memory) (a : Nat) (v : Byte) (ha : a ≤ 0xFFF) (h : m.wf = true) :
    (m.poke a v).wf = true :=
  Memory.wfFrom_poke m a 0 v (Nat.zero_le a) ha h

/-- A span of writes inside memory keeps the canonical form. -/
theorem Memory.wf_pokeSpan (m : Memory) (base : Nat) (bytes : List Byte) (hb : base + bytes.length ≤ 0x1000)
    (h : m.wf = true) : (m.pokeSpan base bytes).wf = true := by
  induction bytes generalizing m base with
  | nil => exact h
  | cons v vs ih =>
    simp only [List.length_cons] at hb
    exact ih (m.poke base v) (base + 1) (by omega) (Memory.wf_poke m base v (by omega) h)

/-- Reading a byte after writing a span: the span's bytes, and everything else as before. -/
theorem Memory.peek_pokeSpan (m : Memory) (base b : Nat) (bytes : List Byte) (hb : base + bytes.length ≤ 0x1000)
    (h : m.wf = true) :
    (m.pokeSpan base bytes).peek b =
      if base ≤ b ∧ b < base + bytes.length then bytes.getD (b - base) 0x00#8 else m.peek b := by
  induction bytes generalizing m base with
  | nil =>
    simp [Memory.pokeSpan]
  | cons v vs ih =>
    simp only [List.length_cons] at hb
    simp only [Memory.pokeSpan, List.length_cons]
    rw [ih (m.poke base v) (base + 1) (by omega) (Memory.wf_poke m base v (by omega) h),
      Memory.peek_poke m base b v h]
    by_cases h1 : b = base
    · subst h1
      simp
    · by_cases h2 : base + 1 ≤ b ∧ b < base + 1 + vs.length
      · have h3 : base ≤ b ∧ b < base + (vs.length + 1) := by omega
        have h4 : b - base = (b - (base + 1)) + 1 := by omega
        rw [if_pos h2, if_pos h3, h4, List.getD_cons_succ]
      · have h3 : ¬ (base ≤ b ∧ b < base + (vs.length + 1)) := by omega
        rw [if_neg h2, if_neg h1, if_neg h3]

end Sys2Proof.Machine
end

