-- ==== Sys2Proof/Laws/State.lean ====
section
/-!
SUPPORT. One lemma per field per update of the state (Machine/Ops.lean), so that no proof unfolds a record update.
-/

namespace Sys2Proof.Machine

/-! ## setReg -/

@[simp] theorem State.setReg_mem (s : State) (r : Nibble) (b : Byte) : (s.setReg r b).mem = s.mem := rfl
@[simp] theorem State.setReg_i (s : State) (r : Nibble) (b : Byte) : (s.setReg r b).i = s.i := rfl
@[simp] theorem State.setReg_pc (s : State) (r : Nibble) (b : Byte) : (s.setReg r b).pc = s.pc := rfl
@[simp] theorem State.setReg_stack (s : State) (r : Nibble) (b : Byte) : (s.setReg r b).stack = s.stack := rfl
@[simp] theorem State.setReg_sp (s : State) (r : Nibble) (b : Byte) : (s.setReg r b).sp = s.sp := rfl
@[simp] theorem State.setReg_disp (s : State) (r : Nibble) (b : Byte) : (s.setReg r b).disp = s.disp := rfl
@[simp] theorem State.setReg_key (s : State) (r : Nibble) (b : Byte) : (s.setReg r b).key = s.key := rfl
@[simp] theorem State.setReg_dt (s : State) (r : Nibble) (b : Byte) : (s.setReg r b).dt = s.dt := rfl
@[simp] theorem State.setReg_st (s : State) (r : Nibble) (b : Byte) : (s.setReg r b).st = s.st := rfl
@[simp] theorem State.setReg_status (s : State) (r : Nibble) (b : Byte) : (s.setReg r b).status = s.status := rfl
@[simp] theorem State.setReg_cfg (s : State) (r : Nibble) (b : Byte) : (s.setReg r b).cfg = s.cfg := rfl
@[simp] theorem State.setReg_rndIn (s : State) (r : Nibble) (b : Byte) : (s.setReg r b).rndIn = s.rndIn := rfl
@[simp] theorem State.setReg_draws (s : State) (r : Nibble) (b : Byte) : (s.setReg r b).draws = s.draws := rfl
@[simp] theorem State.setReg_slot (s : State) (r : Nibble) (b : Byte) (k : Fin 16) : (s.setReg r b).slot k = s.slot k := rfl
@[simp] theorem State.setReg_keyDown (s : State) (r : Nibble) (b : Byte) (k : Nibble) : (s.setReg r b).keyDown k = s.keyDown k := rfl

/-! ## setRegFlag -/

@[simp] theorem State.setRegFlag_mem (s : State) (x : Nibble) (r f : Byte) : (s.setRegFlag x r f).mem = s.mem := rfl
@[simp] theorem State.setRegFlag_i (s : State) (x : Nibble) (r f : Byte) : (s.setRegFlag x r f).i = s.i := rfl
@[simp] theorem State.setRegFlag_pc (s : State) (x : Nibble) (r f : Byte) : (s.setRegFlag x r f).pc = s.pc := rfl
@[simp] theorem State.setRegFlag_stack (s : State) (x : Nibble) (r f : Byte) : (s.setRegFlag x r f).stack = s.stack := rfl
@[simp] theorem State.setRegFlag_sp (s : State) (x : Nibble) (r f : Byte) : (s.setRegFlag x r f).sp = s.sp := rfl
@[simp] theorem State.setRegFlag_disp (s : State) (x : Nibble) (r f : Byte) : (s.setRegFlag x r f).disp = s.disp := rfl
@[simp] theorem State.setRegFlag_key (s : State) (x : Nibble) (r f : Byte) : (s.setRegFlag x r f).key = s.key := rfl
@[simp] theorem State.setRegFlag_dt (s : State) (x : Nibble) (r f : Byte) : (s.setRegFlag x r f).dt = s.dt := rfl
@[simp] theorem State.setRegFlag_st (s : State) (x : Nibble) (r f : Byte) : (s.setRegFlag x r f).st = s.st := rfl
@[simp] theorem State.setRegFlag_status (s : State) (x : Nibble) (r f : Byte) : (s.setRegFlag x r f).status = s.status := rfl
@[simp] theorem State.setRegFlag_cfg (s : State) (x : Nibble) (r f : Byte) : (s.setRegFlag x r f).cfg = s.cfg := rfl
@[simp] theorem State.setRegFlag_rndIn (s : State) (x : Nibble) (r f : Byte) : (s.setRegFlag x r f).rndIn = s.rndIn := rfl
@[simp] theorem State.setRegFlag_draws (s : State) (x : Nibble) (r f : Byte) : (s.setRegFlag x r f).draws = s.draws := rfl
@[simp] theorem State.setRegFlag_slot (s : State) (x : Nibble) (r f : Byte) (k : Fin 16) : (s.setRegFlag x r f).slot k = s.slot k := rfl
@[simp] theorem State.setRegFlag_keyDown (s : State) (x : Nibble) (r f : Byte) (k : Nibble) : (s.setRegFlag x r f).keyDown k = s.keyDown k := rfl

/-! ## setRegs -/

@[simp] theorem State.setRegs_mem (s : State) (v : Vector Byte 16) : (s.setRegs v).mem = s.mem := rfl
@[simp] theorem State.setRegs_v (s : State) (v : Vector Byte 16) : (s.setRegs v).v = v := rfl
@[simp] theorem State.setRegs_i (s : State) (v : Vector Byte 16) : (s.setRegs v).i = s.i := rfl
@[simp] theorem State.setRegs_pc (s : State) (v : Vector Byte 16) : (s.setRegs v).pc = s.pc := rfl
@[simp] theorem State.setRegs_stack (s : State) (v : Vector Byte 16) : (s.setRegs v).stack = s.stack := rfl
@[simp] theorem State.setRegs_sp (s : State) (v : Vector Byte 16) : (s.setRegs v).sp = s.sp := rfl
@[simp] theorem State.setRegs_disp (s : State) (v : Vector Byte 16) : (s.setRegs v).disp = s.disp := rfl
@[simp] theorem State.setRegs_key (s : State) (v : Vector Byte 16) : (s.setRegs v).key = s.key := rfl
@[simp] theorem State.setRegs_dt (s : State) (v : Vector Byte 16) : (s.setRegs v).dt = s.dt := rfl
@[simp] theorem State.setRegs_st (s : State) (v : Vector Byte 16) : (s.setRegs v).st = s.st := rfl
@[simp] theorem State.setRegs_status (s : State) (v : Vector Byte 16) : (s.setRegs v).status = s.status := rfl
@[simp] theorem State.setRegs_cfg (s : State) (v : Vector Byte 16) : (s.setRegs v).cfg = s.cfg := rfl
@[simp] theorem State.setRegs_rndIn (s : State) (v : Vector Byte 16) : (s.setRegs v).rndIn = s.rndIn := rfl
@[simp] theorem State.setRegs_draws (s : State) (v : Vector Byte 16) : (s.setRegs v).draws = s.draws := rfl
@[simp] theorem State.setRegs_slot (s : State) (v : Vector Byte 16) (k : Fin 16) : (s.setRegs v).slot k = s.slot k := rfl
@[simp] theorem State.setRegs_keyDown (s : State) (v : Vector Byte 16) (k : Nibble) : (s.setRegs v).keyDown k = s.keyDown k := rfl

/-! ## setMem -/

@[simp] theorem State.setMem_mem (s : State) (m : Memory) : (s.setMem m).mem = m := rfl
@[simp] theorem State.setMem_v (s : State) (m : Memory) : (s.setMem m).v = s.v := rfl
@[simp] theorem State.setMem_i (s : State) (m : Memory) : (s.setMem m).i = s.i := rfl
@[simp] theorem State.setMem_pc (s : State) (m : Memory) : (s.setMem m).pc = s.pc := rfl
@[simp] theorem State.setMem_stack (s : State) (m : Memory) : (s.setMem m).stack = s.stack := rfl
@[simp] theorem State.setMem_sp (s : State) (m : Memory) : (s.setMem m).sp = s.sp := rfl
@[simp] theorem State.setMem_disp (s : State) (m : Memory) : (s.setMem m).disp = s.disp := rfl
@[simp] theorem State.setMem_key (s : State) (m : Memory) : (s.setMem m).key = s.key := rfl
@[simp] theorem State.setMem_dt (s : State) (m : Memory) : (s.setMem m).dt = s.dt := rfl
@[simp] theorem State.setMem_st (s : State) (m : Memory) : (s.setMem m).st = s.st := rfl
@[simp] theorem State.setMem_status (s : State) (m : Memory) : (s.setMem m).status = s.status := rfl
@[simp] theorem State.setMem_cfg (s : State) (m : Memory) : (s.setMem m).cfg = s.cfg := rfl
@[simp] theorem State.setMem_rndIn (s : State) (m : Memory) : (s.setMem m).rndIn = s.rndIn := rfl
@[simp] theorem State.setMem_draws (s : State) (m : Memory) : (s.setMem m).draws = s.draws := rfl
@[simp] theorem State.setMem_reg (s : State) (m : Memory) (q : Nibble) : (s.setMem m).reg q = s.reg q := rfl
@[simp] theorem State.setMem_slot (s : State) (m : Memory) (k : Fin 16) : (s.setMem m).slot k = s.slot k := rfl
@[simp] theorem State.setMem_keyDown (s : State) (m : Memory) (k : Nibble) : (s.setMem m).keyDown k = s.keyDown k := rfl

/-! ## setStack -/

@[simp] theorem State.setStack_mem (s : State) (w : Vector Word 16) (p : Fin 17) : (s.setStack w p).mem = s.mem := rfl
@[simp] theorem State.setStack_v (s : State) (w : Vector Word 16) (p : Fin 17) : (s.setStack w p).v = s.v := rfl
@[simp] theorem State.setStack_i (s : State) (w : Vector Word 16) (p : Fin 17) : (s.setStack w p).i = s.i := rfl
@[simp] theorem State.setStack_pc (s : State) (w : Vector Word 16) (p : Fin 17) : (s.setStack w p).pc = s.pc := rfl
@[simp] theorem State.setStack_stack (s : State) (w : Vector Word 16) (p : Fin 17) : (s.setStack w p).stack = w := rfl
@[simp] theorem State.setStack_sp (s : State) (w : Vector Word 16) (p : Fin 17) : (s.setStack w p).sp = p := rfl
@[simp] theorem State.setStack_disp (s : State) (w : Vector Word 16) (p : Fin 17) : (s.setStack w p).disp = s.disp := rfl
@[simp] theorem State.setStack_key (s : State) (w : Vector Word 16) (p : Fin 17) : (s.setStack w p).key = s.key := rfl
@[simp] theorem State.setStack_dt (s : State) (w : Vector Word 16) (p : Fin 17) : (s.setStack w p).dt = s.dt := rfl
@[simp] theorem State.setStack_st (s : State) (w : Vector Word 16) (p : Fin 17) : (s.setStack w p).st = s.st := rfl
@[simp] theorem State.setStack_status (s : State) (w : Vector Word 16) (p : Fin 17) : (s.setStack w p).status = s.status := rfl
@[simp] theorem State.setStack_cfg (s : State) (w : Vector Word 16) (p : Fin 17) : (s.setStack w p).cfg = s.cfg := rfl
@[simp] theorem State.setStack_rndIn (s : State) (w : Vector Word 16) (p : Fin 17) : (s.setStack w p).rndIn = s.rndIn := rfl
@[simp] theorem State.setStack_draws (s : State) (w : Vector Word 16) (p : Fin 17) : (s.setStack w p).draws = s.draws := rfl
@[simp] theorem State.setStack_reg (s : State) (w : Vector Word 16) (p : Fin 17) (q : Nibble) : (s.setStack w p).reg q = s.reg q := rfl
@[simp] theorem State.setStack_keyDown (s : State) (w : Vector Word 16) (p : Fin 17) (k : Nibble) : (s.setStack w p).keyDown k = s.keyDown k := rfl

/-! ## setI -/

@[simp] theorem State.setI_mem (s : State) (a : Word) : (s.setI a).mem = s.mem := rfl
@[simp] theorem State.setI_v (s : State) (a : Word) : (s.setI a).v = s.v := rfl
@[simp] theorem State.setI_i (s : State) (a : Word) : (s.setI a).i = a := rfl
@[simp] theorem State.setI_pc (s : State) (a : Word) : (s.setI a).pc = s.pc := rfl
@[simp] theorem State.setI_stack (s : State) (a : Word) : (s.setI a).stack = s.stack := rfl
@[simp] theorem State.setI_sp (s : State) (a : Word) : (s.setI a).sp = s.sp := rfl
@[simp] theorem State.setI_disp (s : State) (a : Word) : (s.setI a).disp = s.disp := rfl
@[simp] theorem State.setI_key (s : State) (a : Word) : (s.setI a).key = s.key := rfl
@[simp] theorem State.setI_dt (s : State) (a : Word) : (s.setI a).dt = s.dt := rfl
@[simp] theorem State.setI_st (s : State) (a : Word) : (s.setI a).st = s.st := rfl
@[simp] theorem State.setI_status (s : State) (a : Word) : (s.setI a).status = s.status := rfl
@[simp] theorem State.setI_cfg (s : State) (a : Word) : (s.setI a).cfg = s.cfg := rfl
@[simp] theorem State.setI_rndIn (s : State) (a : Word) : (s.setI a).rndIn = s.rndIn := rfl
@[simp] theorem State.setI_draws (s : State) (a : Word) : (s.setI a).draws = s.draws := rfl
@[simp] theorem State.setI_reg (s : State) (a : Word) (q : Nibble) : (s.setI a).reg q = s.reg q := rfl
@[simp] theorem State.setI_slot (s : State) (a : Word) (k : Fin 16) : (s.setI a).slot k = s.slot k := rfl
@[simp] theorem State.setI_keyDown (s : State) (a : Word) (k : Nibble) : (s.setI a).keyDown k = s.keyDown k := rfl

/-! ## setPc -/

@[simp] theorem State.setPc_mem (s : State) (a : Word) : (s.setPc a).mem = s.mem := rfl
@[simp] theorem State.setPc_v (s : State) (a : Word) : (s.setPc a).v = s.v := rfl
@[simp] theorem State.setPc_i (s : State) (a : Word) : (s.setPc a).i = s.i := rfl
@[simp] theorem State.setPc_pc (s : State) (a : Word) : (s.setPc a).pc = a := rfl
@[simp] theorem State.setPc_stack (s : State) (a : Word) : (s.setPc a).stack = s.stack := rfl
@[simp] theorem State.setPc_sp (s : State) (a : Word) : (s.setPc a).sp = s.sp := rfl
@[simp] theorem State.setPc_disp (s : State) (a : Word) : (s.setPc a).disp = s.disp := rfl
@[simp] theorem State.setPc_key (s : State) (a : Word) : (s.setPc a).key = s.key := rfl
@[simp] theorem State.setPc_dt (s : State) (a : Word) : (s.setPc a).dt = s.dt := rfl
@[simp] theorem State.setPc_st (s : State) (a : Word) : (s.setPc a).st = s.st := rfl
@[simp] theorem State.setPc_status (s : State) (a : Word) : (s.setPc a).status = s.status := rfl
@[simp] theorem State.setPc_cfg (s : State) (a : Word) : (s.setPc a).cfg = s.cfg := rfl
@[simp] theorem State.setPc_rndIn (s : State) (a : Word) : (s.setPc a).rndIn = s.rndIn := rfl
@[simp] theorem State.setPc_draws (s : State) (a : Word) : (s.setPc a).draws = s.draws := rfl
@[simp] theorem State.setPc_reg (s : State) (a : Word) (q : Nibble) : (s.setPc a).reg q = s.reg q := rfl
@[simp] theorem State.setPc_slot (s : State) (a : Word) (k : Fin 16) : (s.setPc a).slot k = s.slot k := rfl
@[simp] theorem State.setPc_keyDown (s : State) (a : Word) (k : Nibble) : (s.setPc a).keyDown k = s.keyDown k := rfl

/-! ## setDisp -/

@[simp] theorem State.setDisp_mem (s : State) (d : Display) : (s.setDisp d).mem = s.mem := rfl
@[simp] theorem State.setDisp_v (s : State) (d : Display) : (s.setDisp d).v = s.v := rfl
@[simp] theorem State.setDisp_i (s : State) (d : Display) : (s.setDisp d).i = s.i := rfl
@[simp] theorem State.setDisp_pc (s : State) (d : Display) : (s.setDisp d).pc = s.pc := rfl
@[simp] theorem State.setDisp_stack (s : State) (d : Display) : (s.setDisp d).stack = s.stack := rfl
@[simp] theorem State.setDisp_sp (s : State) (d : Display) : (s.setDisp d).sp = s.sp := rfl
@[simp] theorem State.setDisp_disp (s : State) (d : Display) : (s.setDisp d).disp = d := rfl
@[simp] theorem State.setDisp_key (s : State) (d : Display) : (s.setDisp d).key = s.key := rfl
@[simp] theorem State.setDisp_dt (s : State) (d : Display) : (s.setDisp d).dt = s.dt := rfl
@[simp] theorem State.setDisp_st (s : State) (d : Display) : (s.setDisp d).st = s.st := rfl
@[simp] theorem State.setDisp_status (s : State) (d : Display) : (s.setDisp d).status = s.status := rfl
@[simp] theorem State.setDisp_cfg (s : State) (d : Display) : (s.setDisp d).cfg = s.cfg := rfl
@[simp] theorem State.setDisp_rndIn (s : State) (d : Display) : (s.setDisp d).rndIn = s.rndIn := rfl
@[simp] theorem State.setDisp_draws (s : State) (d : Display) : (s.setDisp d).draws = s.draws := rfl
@[simp] theorem State.setDisp_reg (s : State) (d : Display) (q : Nibble) : (s.setDisp d).reg q = s.reg q := rfl
@[simp] theorem State.setDisp_slot (s : State) (d : Display) (k : Fin 16) : (s.setDisp d).slot k = s.slot k := rfl
@[simp] theorem State.setDisp_keyDown (s : State) (d : Display) (k : Nibble) : (s.setDisp d).keyDown k = s.keyDown k := rfl

/-! ## setDt -/

@[simp] theorem State.setDt_mem (s : State) (b : Byte) : (s.setDt b).mem = s.mem := rfl
@[simp] theorem State.setDt_v (s : State) (b : Byte) : (s.setDt b).v = s.v := rfl
@[simp] theorem State.setDt_i (s : State) (b : Byte) : (s.setDt b).i = s.i := rfl
@[simp] theorem State.setDt_pc (s : State) (b : Byte) : (s.setDt b).pc = s.pc := rfl
@[simp] theorem State.setDt_stack (s : State) (b : Byte) : (s.setDt b).stack = s.stack := rfl
@[simp] theorem State.setDt_sp (s : State) (b : Byte) : (s.setDt b).sp = s.sp := rfl
@[simp] theorem State.setDt_disp (s : State) (b : Byte) : (s.setDt b).disp = s.disp := rfl
@[simp] theorem State.setDt_key (s : State) (b : Byte) : (s.setDt b).key = s.key := rfl
@[simp] theorem State.setDt_dt (s : State) (b : Byte) : (s.setDt b).dt = b := rfl
@[simp] theorem State.setDt_st (s : State) (b : Byte) : (s.setDt b).st = s.st := rfl
@[simp] theorem State.setDt_status (s : State) (b : Byte) : (s.setDt b).status = s.status := rfl
@[simp] theorem State.setDt_cfg (s : State) (b : Byte) : (s.setDt b).cfg = s.cfg := rfl
@[simp] theorem State.setDt_rndIn (s : State) (b : Byte) : (s.setDt b).rndIn = s.rndIn := rfl
@[simp] theorem State.setDt_draws (s : State) (b : Byte) : (s.setDt b).draws = s.draws := rfl
@[simp] theorem State.setDt_reg (s : State) (b : Byte) (q : Nibble) : (s.setDt b).reg q = s.reg q := rfl
@[simp] theorem State.setDt_slot (s : State) (b : Byte) (k : Fin 16) : (s.setDt b).slot k = s.slot k := rfl
@[simp] theorem State.setDt_keyDown (s : State) (b : Byte) (k : Nibble) : (s.setDt b).keyDown k = s.keyDown k := rfl

/-! ## setSt -/

@[simp] theorem State.setSt_mem (s : State) (b : Byte) : (s.setSt b).mem = s.mem := rfl
@[simp] theorem State.setSt_v (s : State) (b : Byte) : (s.setSt b).v = s.v := rfl
@[simp] theorem State.setSt_i (s : State) (b : Byte) : (s.setSt b).i = s.i := rfl
@[simp] theorem State.setSt_pc (s : State) (b : Byte) : (s.setSt b).pc = s.pc := rfl
@[simp] theorem State.setSt_stack (s : State) (b : Byte) : (s.setSt b).stack = s.stack := rfl
@[simp] theorem State.setSt_sp (s : State) (b : Byte) : (s.setSt b).sp = s.sp := rfl
@[simp] theorem State.setSt_disp (s : State) (b : Byte) : (s.setSt b).disp = s.disp := rfl
@[simp] theorem State.setSt_key (s : State) (b : Byte) : (s.setSt b).key = s.key := rfl
@[simp] theorem State.setSt_dt (s : State) (b : Byte) : (s.setSt b).dt = s.dt := rfl
@[simp] theorem State.setSt_st (s : State) (b : Byte) : (s.setSt b).st = b := rfl
@[simp] theorem State.setSt_status (s : State) (b : Byte) : (s.setSt b).status = s.status := rfl
@[simp] theorem State.setSt_cfg (s : State) (b : Byte) : (s.setSt b).cfg = s.cfg := rfl
@[simp] theorem State.setSt_rndIn (s : State) (b : Byte) : (s.setSt b).rndIn = s.rndIn := rfl
@[simp] theorem State.setSt_draws (s : State) (b : Byte) : (s.setSt b).draws = s.draws := rfl
@[simp] theorem State.setSt_reg (s : State) (b : Byte) (q : Nibble) : (s.setSt b).reg q = s.reg q := rfl
@[simp] theorem State.setSt_slot (s : State) (b : Byte) (k : Fin 16) : (s.setSt b).slot k = s.slot k := rfl
@[simp] theorem State.setSt_keyDown (s : State) (b : Byte) (k : Nibble) : (s.setSt b).keyDown k = s.keyDown k := rfl

/-! ## halt -/

@[simp] theorem State.halt_mem (s : State) (e : ErrorRecord) : (s.halt e).mem = s.mem := rfl
@[simp] theorem State.halt_v (s : State) (e : ErrorRecord) : (s.halt e).v = s.v := rfl
@[simp] theorem State.halt_i (s : State) (e : ErrorRecord) : (s.halt e).i = s.i := rfl
@[simp] theorem State.halt_pc (s : State) (e : ErrorRecord) : (s.halt e).pc = s.pc := rfl
@[simp] theorem State.halt_stack (s : State) (e : ErrorRecord) : (s.halt e).stack = s.stack := rfl
@[simp] theorem State.halt_sp (s : State) (e : ErrorRecord) : (s.halt e).sp = s.sp := rfl
@[simp] theorem State.halt_disp (s : State) (e : ErrorRecord) : (s.halt e).disp = s.disp := rfl
@[simp] theorem State.halt_key (s : State) (e : ErrorRecord) : (s.halt e).key = s.key := rfl
@[simp] theorem State.halt_dt (s : State) (e : ErrorRecord) : (s.halt e).dt = s.dt := rfl
@[simp] theorem State.halt_st (s : State) (e : ErrorRecord) : (s.halt e).st = s.st := rfl
@[simp] theorem State.halt_status (s : State) (e : ErrorRecord) : (s.halt e).status = .halted e := rfl
@[simp] theorem State.halt_cfg (s : State) (e : ErrorRecord) : (s.halt e).cfg = s.cfg := rfl
@[simp] theorem State.halt_rndIn (s : State) (e : ErrorRecord) : (s.halt e).rndIn = s.rndIn := rfl
@[simp] theorem State.halt_draws (s : State) (e : ErrorRecord) : (s.halt e).draws = s.draws := rfl
@[simp] theorem State.halt_reg (s : State) (e : ErrorRecord) (q : Nibble) : (s.halt e).reg q = s.reg q := rfl
@[simp] theorem State.halt_slot (s : State) (e : ErrorRecord) (k : Fin 16) : (s.halt e).slot k = s.slot k := rfl
@[simp] theorem State.halt_keyDown (s : State) (e : ErrorRecord) (k : Nibble) : (s.halt e).keyDown k = s.keyDown k := rfl

/-! ## dropDraw -/

@[simp] theorem State.dropDraw_mem (s : State) : s.dropDraw.mem = s.mem := rfl
@[simp] theorem State.dropDraw_v (s : State) : s.dropDraw.v = s.v := rfl
@[simp] theorem State.dropDraw_i (s : State) : s.dropDraw.i = s.i := rfl
@[simp] theorem State.dropDraw_pc (s : State) : s.dropDraw.pc = s.pc := rfl
@[simp] theorem State.dropDraw_stack (s : State) : s.dropDraw.stack = s.stack := rfl
@[simp] theorem State.dropDraw_sp (s : State) : s.dropDraw.sp = s.sp := rfl
@[simp] theorem State.dropDraw_disp (s : State) : s.dropDraw.disp = s.disp := rfl
@[simp] theorem State.dropDraw_key (s : State) : s.dropDraw.key = s.key := rfl
@[simp] theorem State.dropDraw_dt (s : State) : s.dropDraw.dt = s.dt := rfl
@[simp] theorem State.dropDraw_st (s : State) : s.dropDraw.st = s.st := rfl
@[simp] theorem State.dropDraw_status (s : State) : s.dropDraw.status = s.status := rfl
@[simp] theorem State.dropDraw_cfg (s : State) : s.dropDraw.cfg = s.cfg := rfl
@[simp] theorem State.dropDraw_rndIn (s : State) : s.dropDraw.rndIn = s.rndIn.tail := rfl
@[simp] theorem State.dropDraw_draws (s : State) : s.dropDraw.draws = s.draws + 1 := rfl
@[simp] theorem State.dropDraw_reg (s : State) (q : Nibble) : s.dropDraw.reg q = s.reg q := rfl
@[simp] theorem State.dropDraw_slot (s : State) (k : Fin 16) : s.dropDraw.slot k = s.slot k := rfl
@[simp] theorem State.dropDraw_keyDown (s : State) (k : Nibble) : s.dropDraw.keyDown k = s.keyDown k := rfl

/-! ## decay -/

@[simp] theorem State.decay_mem (s : State) : s.decay.mem = s.mem := rfl
@[simp] theorem State.decay_v (s : State) : s.decay.v = s.v := rfl
@[simp] theorem State.decay_i (s : State) : s.decay.i = s.i := rfl
@[simp] theorem State.decay_pc (s : State) : s.decay.pc = s.pc := rfl
@[simp] theorem State.decay_stack (s : State) : s.decay.stack = s.stack := rfl
@[simp] theorem State.decay_sp (s : State) : s.decay.sp = s.sp := rfl
@[simp] theorem State.decay_disp (s : State) : s.decay.disp = s.disp := rfl
@[simp] theorem State.decay_key (s : State) : s.decay.key = s.key := rfl
@[simp] theorem State.decay_dt (s : State) : s.decay.dt = decayed s.dt := rfl
@[simp] theorem State.decay_st (s : State) : s.decay.st = decayed s.st := rfl
@[simp] theorem State.decay_status (s : State) : s.decay.status = s.status := rfl
@[simp] theorem State.decay_cfg (s : State) : s.decay.cfg = s.cfg := rfl
@[simp] theorem State.decay_rndIn (s : State) : s.decay.rndIn = s.rndIn := rfl
@[simp] theorem State.decay_draws (s : State) : s.decay.draws = s.draws := rfl
@[simp] theorem State.decay_reg (s : State) (q : Nibble) : s.decay.reg q = s.reg q := rfl
@[simp] theorem State.decay_slot (s : State) (k : Fin 16) : s.decay.slot k = s.slot k := rfl
@[simp] theorem State.decay_keyDown (s : State) (k : Nibble) : s.decay.keyDown k = s.keyDown k := rfl

/-! ## Registers -/

/-- Reading a register after writing one (10_state.md R21: the sixteen are independent). -/
@[simp] theorem State.setReg_reg (s : State) (r : Nibble) (b : Byte) (q : Nibble) :
    (s.setReg r b).reg q = if q = r then b else s.reg q := by
  have hr : r.toNat < 16 := r.isLt
  have hq : q.toNat < 16 := q.isLt
  simp only [State.reg, State.setReg, Vector.getElem_set]
  by_cases h : q = r
  · simp [h]
  · have : r.toNat ≠ q.toNat := fun e => h (BitVec.eq_of_toNat_eq e.symm)
    simp [h, this]

/-! ## stepDecay -/

@[simp] theorem State.stepDecay_mem (s : State) : s.stepDecay.mem = s.mem := by
  unfold State.stepDecay; split <;> rfl
@[simp] theorem State.stepDecay_v (s : State) : s.stepDecay.v = s.v := by
  unfold State.stepDecay; split <;> rfl
@[simp] theorem State.stepDecay_i (s : State) : s.stepDecay.i = s.i := by
  unfold State.stepDecay; split <;> rfl
@[simp] theorem State.stepDecay_pc (s : State) : s.stepDecay.pc = s.pc := by
  unfold State.stepDecay; split <;> rfl
@[simp] theorem State.stepDecay_stack (s : State) : s.stepDecay.stack = s.stack := by
  unfold State.stepDecay; split <;> rfl
@[simp] theorem State.stepDecay_sp (s : State) : s.stepDecay.sp = s.sp := by
  unfold State.stepDecay; split <;> rfl
@[simp] theorem State.stepDecay_disp (s : State) : s.stepDecay.disp = s.disp := by
  unfold State.stepDecay; split <;> rfl
@[simp] theorem State.stepDecay_key (s : State) : s.stepDecay.key = s.key := by
  unfold State.stepDecay; split <;> rfl
theorem State.stepDecay_dt (s : State) :
    s.stepDecay.dt = if s.cfg.stepDecaysTimers then decayed s.dt else s.dt := by
  unfold State.stepDecay; split <;> rfl
theorem State.stepDecay_st (s : State) :
    s.stepDecay.st = if s.cfg.stepDecaysTimers then decayed s.st else s.st := by
  unfold State.stepDecay; split <;> rfl
@[simp] theorem State.stepDecay_status (s : State) : s.stepDecay.status = s.status := by
  unfold State.stepDecay; split <;> rfl
@[simp] theorem State.stepDecay_cfg (s : State) : s.stepDecay.cfg = s.cfg := by
  unfold State.stepDecay; split <;> rfl
@[simp] theorem State.stepDecay_rndIn (s : State) : s.stepDecay.rndIn = s.rndIn := by
  unfold State.stepDecay; split <;> rfl
@[simp] theorem State.stepDecay_draws (s : State) : s.stepDecay.draws = s.draws := by
  unfold State.stepDecay; split <;> rfl
@[simp] theorem State.stepDecay_reg (s : State) (q : Nibble) : s.stepDecay.reg q = s.reg q := by
  unfold State.stepDecay; split <;> rfl
@[simp] theorem State.stepDecay_slot (s : State) (k : Fin 16) : s.stepDecay.slot k = s.slot k := by
  unfold State.stepDecay; split <;> rfl
@[simp] theorem State.stepDecay_keyDown (s : State) (k : Nibble) : s.stepDecay.keyDown k = s.keyDown k := by
  unfold State.stepDecay; split <;> rfl

end Sys2Proof.Machine
end

