-- ==== Sys2Proof/Laws/Ops.lean ====
section
/-!
SUPPORT. One lemma per shared operation that says everything it can do; later proofs cite these and do not unfold the
operations.
-/

namespace Sys2Proof.Machine

/-! ## Memory spans -/

/-- The bounds check passes exactly when the span is empty or ends inside memory, and names the first address outside
otherwise (20_memory.md R54). -/
theorem firstOutside_eq (base n : Nat) :
    firstOutside base n =
      if n = 0 ∨ base + n ≤ 0x1000 then none else some (if 0xFFF < base then base else 0x1000) := by
  induction n generalizing base with
  | zero => rfl
  | succ n ih =>
    have hmap : (List.range (n + 1)).map (base + ·) = base :: (List.range n).map (base + 1 + ·) := by
      rw [List.range_succ_eq_map]
      simp [Function.comp_def, Nat.add_comm, Nat.add_left_comm]
    have hrec : firstOutside base (n + 1) = if 0xFFF < base then some base else firstOutside (base + 1) n := by
      unfold firstOutside
      rw [hmap]
      by_cases hb : 0xFFF < base <;> simp [List.find?, hb]
    rw [hrec, ih (base + 1)]
    by_cases hb : 0xFFF < base
    · have h1 : ¬ (n + 1 = 0 ∨ base + (n + 1) ≤ 0x1000) := by omega
      rw [if_pos hb, if_neg h1, if_pos hb]
    · by_cases h2 : n = 0 ∨ base + 1 + n ≤ 0x1000
      · have h3 : n + 1 = 0 ∨ base + (n + 1) ≤ 0x1000 := by omega
        rw [if_neg hb, if_pos h2, if_pos h3]
      · have h3 : ¬ (n + 1 = 0 ∨ base + (n + 1) ≤ 0x1000) := by omega
        rw [if_neg hb, if_neg h2, if_neg h3, if_neg hb]
        by_cases h4 : 0xFFF < base + 1
        · rw [if_pos h4]; congr 1; omega
        · rw [if_neg h4]

/-- A span that lies in memory passes the check. -/
theorem firstOutside_none (base n : Nat) (h : n = 0 ∨ base + n ≤ 0x1000) : firstOutside base n = none := by
  rw [firstOutside_eq, if_pos h]

/-- A span that leaves memory fails it at the first address above 0xFFF. -/
theorem firstOutside_some (base n : Nat) (h : ¬ (n = 0 ∨ base + n ≤ 0x1000)) :
    firstOutside base n = some (if 0xFFF < base then base else 0x1000) := by
  rw [firstOutside_eq, if_neg h]

/-- Reading a span: its bytes, or the first address outside memory. -/
theorem State.readSpan_eq (s : State) (base n : Nat) :
    s.readSpan base n =
      if n = 0 ∨ base + n ≤ 0x1000 then .ok ((List.range n).map fun k => s.mem.peek (base + k))
      else .error (if 0xFFF < base then base else 0x1000) := by
  unfold State.readSpan
  by_cases h : n = 0 ∨ base + n ≤ 0x1000
  · rw [firstOutside_none base n h, if_pos h]
  · rw [firstOutside_some base n h, if_neg h]

/-- Writing a span: memory with its bytes, or the first address outside memory. -/
theorem State.writeSpan_eq (s : State) (base : Nat) (bytes : List Byte) :
    s.writeSpan base bytes =
      if bytes.length = 0 ∨ base + bytes.length ≤ 0x1000 then .ok (s.setMem (s.mem.pokeSpan base bytes))
      else .error (if 0xFFF < base then base else 0x1000) := by
  unfold State.writeSpan
  by_cases h : bytes.length = 0 ∨ base + bytes.length ≤ 0x1000
  · rw [firstOutside_none base _ h, if_pos h]
  · rw [firstOutside_some base _ h, if_neg h]

/-! ## Registers -/

/-- VF after a result and its flag: the flag (42_alu.md R150). -/
@[simp] theorem State.setRegFlag_reg (s : State) (x : Nibble) (r f : Byte) (q : Nibble) :
    (s.setRegFlag x r f).reg q = if q = vF then f else if q = x then r else s.reg q := by
  simp [State.setRegFlag]

/-- Writing registers from `k` on changes no other field. -/
theorem State.setRegsFrom_eq (s : State) (k : Nat) (bytes : List Byte) :
    s.setRegsFrom k bytes = s.setRegs (s.setRegsFrom k bytes).v := by
  induction bytes generalizing s k with
  | nil => rfl
  | cons b bs ih =>
    simp only [State.setRegsFrom]
    exact ih (s.setReg (BitVec.ofNat 4 k) b) (k + 1)

/-- The registers after writing them from `k` on (46_ext_memory.md R222). -/
theorem State.setRegsFrom_reg (s : State) (k : Nat) (bytes : List Byte) (hk : k + bytes.length ≤ 16) (q : Nibble) :
    (s.setRegsFrom k bytes).reg q =
      if k ≤ q.toNat ∧ q.toNat < k + bytes.length then bytes.getD (q.toNat - k) 0x00#8 else s.reg q := by
  induction bytes generalizing s k with
  | nil =>
    have : ¬ (k ≤ q.toNat ∧ q.toNat < k + ([] : List Byte).length) := by simp only [List.length_nil]; omega
    rw [if_neg this]; rfl
  | cons b bs ih =>
    simp only [List.length_cons] at hk
    simp only [State.setRegsFrom, List.length_cons]
    rw [ih (s.setReg (BitVec.ofNat 4 k) b) (k + 1) (by omega), State.setReg_reg]
    have hq : (q = BitVec.ofNat 4 k) ↔ q.toNat = k := by
      constructor
      · intro h; rw [h, BitVec.toNat_ofNat]; omega
      · intro h; apply BitVec.eq_of_toNat_eq; rw [BitVec.toNat_ofNat, h]; omega
    by_cases h1 : q.toNat = k
    · have h2 : ¬ (k + 1 ≤ q.toNat ∧ q.toNat < k + 1 + bs.length) := by omega
      have h3 : k ≤ q.toNat ∧ q.toNat < k + (bs.length + 1) := by omega
      have h4 : q.toNat - k = 0 := by omega
      rw [if_neg h2, if_pos (hq.mpr h1), if_pos h3, h4, List.getD_cons_zero]
    · by_cases h2 : k + 1 ≤ q.toNat ∧ q.toNat < k + 1 + bs.length
      · have h3 : k ≤ q.toNat ∧ q.toNat < k + (bs.length + 1) := by omega
        have h4 : q.toNat - k = (q.toNat - (k + 1)) + 1 := by omega
        rw [if_pos h2, if_pos h3, h4, List.getD_cons_succ]
      · have h3 : ¬ (k ≤ q.toNat ∧ q.toNat < k + (bs.length + 1)) := by omega
        rw [if_neg h2, if_neg h3, if_neg (fun h => h1 (hq.mp h))]

/-- The registers Fx55 stores, in order. -/
theorem State.regsUpTo_getD (s : State) (x : Nibble) (k : Nat) (hk : k ≤ x.toNat) :
    (s.regsUpTo x).getD k 0x00#8 = s.reg (BitVec.ofNat 4 k) := by
  have : k < x.toNat + 1 := by omega
  simp [State.regsUpTo, List.getD, this]

/-- Fx55 stores x + 1 bytes. -/
@[simp] theorem State.regsUpTo_length (s : State) (x : Nibble) : (s.regsUpTo x).length = x.toNat + 1 := by
  simp [State.regsUpTo]

/-! ## Call stack -/

/-- Push below 16 entries (10_state.md R28). -/
theorem State.push_some (s : State) (r : Word) (h : s.sp.val < 16) :
    s.push r = some (s.setStack (s.stack.set s.sp.val r h) ⟨s.sp.val + 1, by omega⟩) := by
  simp [State.push, h]

/-- The slots after a push: the new entry, and the others as before. -/
theorem State.setStack_set_slot (s : State) (j : Nat) (r : Word) (h : j < 16) (p : Fin 17) (k : Fin 16) :
    (s.setStack (s.stack.set j r h) p).slot k = if k.val = j then r else s.slot k := by
  simp only [State.slot, State.setStack, Vector.getElem_set]
  by_cases hk : k.val = j
  · simp [hk]
  · have hk' : ¬ j = k.val := fun e => hk e.symm
    simp [hk, hk']

/-- Push on a full stack (10_state.md R28). -/
theorem State.push_none (s : State) (r : Word) (h : ¬ s.sp.val < 16) : s.push r = none := by
  simp [State.push, h]

/-- Pop of an entry (10_state.md R29): only sp changes. -/
theorem State.pop_some (s : State) (h : s.sp.val ≠ 0) :
    s.pop = some (s.slot ⟨s.sp.val - 1, by omega⟩, s.setStack s.stack ⟨s.sp.val - 1, by omega⟩) := by
  simp [State.pop, h]

/-- Pop of an empty stack (10_state.md R29). -/
theorem State.pop_none (s : State) (h : s.sp.val = 0) : s.pop = none := by
  simp [State.pop, h]

/-! ## Keys -/

/-- The lowest pressed key is pressed, and no lower one is (45_keys_timers.md R204). -/
theorem State.lowestKey_some (s : State) (k : Nibble) (h : s.lowestKey = some k) :
    s.keyDown k = true ∧ ∀ j : Nibble, j.toNat < k.toNat → s.keyDown j = false := by
  unfold State.lowestKey at h
  rw [List.find?_map, Option.map_eq_some_iff] at h
  obtain ⟨a, ha, rfl⟩ := h
  rw [List.find?_range_eq_some] at ha
  obtain ⟨hdown, hmem, hlow⟩ := ha
  refine ⟨hdown, fun j hj => ?_⟩
  rw [List.mem_range] at hmem
  have h16 : (BitVec.ofNat 4 a).toNat = a := by rw [BitVec.toNat_ofNat]; omega
  rw [h16] at hj
  have := hlow j.toNat hj
  simpa using this

/-- No key is pressed (45_keys_timers.md R205). -/
theorem State.lowestKey_none (s : State) : s.lowestKey = none ↔ ∀ k, s.keyDown k = false := by
  unfold State.lowestKey
  rw [List.find?_eq_none]
  constructor
  · intro h k
    have := h k (by
      rw [List.mem_map]
      exact ⟨k.toNat, List.mem_range.mpr k.isLt, by simp⟩)
    simpa using this
  · intro h k _
    simp [h k]

/-! ## Timers and the end of a step -/

/-- A decay never raises a timer. -/
theorem decayed_toNat (t : Byte) : (decayed t).toNat = t.toNat - 1 := by
  unfold decayed
  split
  · next h => simp [h]
  · next h =>
    have : t.toNat ≠ 0 := fun e => h (BitVec.eq_of_toNat_eq e)
    have := t.isLt
    rw [BitVec.toNat_sub]
    simp only [BitVec.toNat_ofNat]
    omega

/-- Everything the end of a step can do (40_execution_cycle.md R105, R106, R109). -/
theorem finish_next (s t : State) (e : Effect) (h : finish s e = .next t) :
    (∃ u, e = .advance u ∧ t = (u.setPc (s.pc + 2#16)).stepDecay) ∨
    (∃ u, e = .set u ∧ t = u.stepDecay) ∨
    (e = .block ∧ t = s) ∨
    (∃ err, e = .error err ∧ t = s.halt err) := by
  cases e with
  | advance u => exact .inl ⟨u, rfl, by simpa [finish] using h.symm⟩
  | set u => exact .inr (.inl ⟨u, rfl, by simpa [finish] using h.symm⟩)
  | block => exact .inr (.inr (.inl ⟨rfl, by simpa [finish] using h.symm⟩))
  | error err => exact .inr (.inr (.inr ⟨err, rfl, by simpa [finish] using h.symm⟩))
  | refuse r => simp [finish] at h

/-- An instruction that raises an error only halts the core (60_exceptions.md R233). -/
theorem raise_eq (s : State) (code : ErrorCode) (i : Instr) (addr : Option Nat) :
    raise s code i addr =
      .next (s.halt { code := code, pc := s.pc, opcode := some (encode i), addr := addr.map (BitVec.ofNat 16) }) :=
  rfl

end Sys2Proof.Machine
end

