-- ==== Sys2Proof/Laws/Display.lean ====
section
/-!
SUPPORT. What the blit does to every pixel and to the collision (44_display.md R191), for provers to cite in place of
its loops.
-/

namespace Sys2Proof.Machine

/-! ## Pixels -/

/-- Reading a pixel after writing one. -/
@[simp] theorem Display.pixel_put (d : Display) (px qx : Fin 64) (py qy : Fin 32) (b : Bool) :
    (d.put px py b).pixel qx qy = if qx = px ∧ qy = py then b else d.pixel qx qy := by
  unfold Display.pixel Display.put
  rw [Vector.getElem_set]
  by_cases hx : qx = px
  · subst hx
    simp only [if_true, Vector.getElem_set, true_and]
    by_cases hy : qy = py
    · simp [hy]
    · have : ¬ py.val = qy.val := fun e => hy (Fin.ext e.symm)
      simp [hy, this]
  · have : ¬ px.val = qx.val := fun e => hx (Fin.ext e.symm)
    simp [hx, this]

/-- Every pixel of the clear display is false (44_display.md R190). -/
@[simp] theorem Display.pixel_clear (px : Fin 64) (py : Fin 32) : Display.clear.pixel px py = false := by
  simp [Display.pixel, Display.clear]

/-! ## The blit -/

/-- A 1 bit of the first `k` columns of a row lies on the pixel. -/
def RowCovers (x0 : Nat) (row : Fin 32) (byte : Byte) (k : Nat) (px : Fin 64) (py : Fin 32) : Prop :=
  py = row ∧ ∃ c, c < k ∧ px = Fin.ofNat 64 (x0 + c) ∧ byte.getLsbD (7 - c) = true

/-- `SpriteCovers` with the wrapped coordinates as indices. -/
theorem spriteCovers_iff (x0 y0 : Nat) (bytes : List Byte) (px : Fin 64) (py : Fin 32) :
    SpriteCovers x0 y0 bytes px py ↔
      ∃ r c, r < bytes.length ∧ c < 8 ∧ px = Fin.ofNat 64 (x0 + c) ∧ py = Fin.ofNat 32 (y0 + r) ∧
        (bytes.getD r 0x00#8).getLsbD (7 - c) = true := by
  simp only [SpriteCovers, Fin.ext_iff, Fin.val_ofNat]

/-- `b'` is `b` with exactly the pixels of `P` inverted, and its collision says whether one of them was true. -/
structure Blit.Inverts (b b' : Blit) (P : Fin 64 → Fin 32 → Prop) : Prop where
  inside : ∀ px py, P px py → b'.disp.pixel px py = !b.disp.pixel px py
  outside : ∀ px py, ¬ P px py → b'.disp.pixel px py = b.disp.pixel px py
  collides : b'.collision = true ↔ b.collision = true ∨ ∃ px py, P px py ∧ b.disp.pixel px py = true

/-- Nothing is inverted where nothing is drawn. -/
theorem Blit.inverts_refl (b : Blit) (P : Fin 64 → Fin 32 → Prop) (h : ∀ px py, ¬ P px py) : b.Inverts b P :=
  ⟨fun px py hp => absurd hp (h px py), fun _ _ _ => rfl,
    ⟨Or.inl, fun hc => hc.elim id fun ⟨px, py, hp, _⟩ => absurd hp (h px py)⟩⟩

/-- Two blits that touch different pixels make one. -/
theorem Blit.inverts_trans {b b' b'' : Blit} {P Q R : Fin 64 → Fin 32 → Prop} (h1 : b.Inverts b' P)
    (h2 : b'.Inverts b'' Q) (hR : ∀ px py, R px py ↔ P px py ∨ Q px py) (hd : ∀ px py, P px py → ¬ Q px py) :
    b.Inverts b'' R where
  inside px py hr := by
    rcases (hR px py).mp hr with hp | hq
    · rw [h2.outside px py (hd px py hp), h1.inside px py hp]
    · rw [h2.inside px py hq, h1.outside px py (fun hp => hd px py hp hq)]
  outside px py hr := by
    have hp : ¬ P px py := fun h => hr ((hR px py).mpr (.inl h))
    have hq : ¬ Q px py := fun h => hr ((hR px py).mpr (.inr h))
    rw [h2.outside px py hq, h1.outside px py hp]
  collides := by
    rw [h2.collides, h1.collides]
    constructor
    · rintro ((h | ⟨px, py, hp, ht⟩) | ⟨px, py, hq, ht⟩)
      · exact .inl h
      · exact .inr ⟨px, py, (hR px py).mpr (.inl hp), ht⟩
      · rw [h1.outside px py (fun hp => hd px py hp hq)] at ht
        exact .inr ⟨px, py, (hR px py).mpr (.inr hq), ht⟩
    · rintro (h | ⟨px, py, hr, ht⟩)
      · exact .inl (.inl h)
      · rcases (hR px py).mp hr with hp | hq
        · exact .inl (.inr ⟨px, py, hp, ht⟩)
        · refine .inr ⟨px, py, hq, ?_⟩
          rw [h1.outside px py (fun hp => hd px py hp hq)]
          exact ht

/-- One bit inverts its pixel or nothing. -/
theorem Blit.bit_inverts (b : Blit) (px : Fin 64) (py : Fin 32) (one : Bool) :
    b.Inverts (b.bit px py one) fun qx qy => one = true ∧ qx = px ∧ qy = py := by
  cases one with
  | false => exact b.inverts_refl _ fun _ _ h => Bool.noConfusion h.1
  | true =>
    refine ⟨fun qx qy h => ?_, fun qx qy h => ?_, ?_⟩
    · obtain ⟨-, rfl, rfl⟩ := h
      simp [Blit.bit]
    · have : ¬ (qx = px ∧ qy = py) := fun e => h ⟨rfl, e⟩
      simp [Blit.bit, this]
    · simp [Blit.bit]

/-- The columns of a row are different pixels (R191: 8 < 64). -/
theorem ofNat_column_ne (x0 c k : Nat) (hc : c < k) (hk : k < 8) :
    Fin.ofNat 64 (x0 + c) ≠ Fin.ofNat 64 (x0 + k) := by
  intro h
  have := congrArg Fin.val h
  simp only [Fin.val_ofNat] at this
  omega

/-- The first `k` columns of a row invert the pixels their 1 bits lie on. -/
theorem Blit.columns_inverts (b : Blit) (x0 : Nat) (row : Fin 32) (byte : Byte) (k : Nat) (hk : k ≤ 8) :
    b.Inverts ((List.range k).foldl (fun b c => b.bit (Fin.ofNat 64 (x0 + c)) row (byte.getLsbD (7 - c))) b)
      (RowCovers x0 row byte k) := by
  induction k with
  | zero => exact b.inverts_refl _ fun _ _ h => by obtain ⟨-, c, hc, -⟩ := h; omega
  | succ k ih =>
    rw [List.range_succ, List.foldl_append]
    refine Blit.inverts_trans (ih (by omega)) (Blit.bit_inverts _ _ _ _) (fun px py => ?_) fun px py => ?_
    · constructor
      · rintro ⟨hy, c, hc, hx, hb⟩
        by_cases hck : c = k
        · subst hck; exact .inr ⟨hb, hx, hy⟩
        · exact .inl ⟨hy, c, by omega, hx, hb⟩
      · rintro (⟨hy, c, hc, hx, hb⟩ | ⟨hb, hx, hy⟩)
        · exact ⟨hy, c, by omega, hx, hb⟩
        · exact ⟨hy, k, by omega, hx, hb⟩
    · rintro ⟨-, c, hc, hx, -⟩ ⟨-, hx', -⟩
      exact ofNat_column_ne x0 c k hc (by omega) (hx.symm.trans hx')

/-- A row inverts the pixels its 1 bits lie on. -/
theorem Blit.row_inverts (b : Blit) (x0 : Nat) (row : Fin 32) (byte : Byte) :
    b.Inverts (b.row x0 row byte) (RowCovers x0 row byte 8) :=
  Blit.columns_inverts b x0 row byte 8 (by omega)

/-- The blit of at most 32 rows inverts exactly the pixels the sprite's 1 bits lie on (R191). -/
theorem Blit.rows_inverts (b : Blit) (x0 y0 : Nat) (bytes : List Byte) (hn : bytes.length ≤ 32) :
    b.Inverts (b.rows x0 y0 bytes) (SpriteCovers x0 y0 bytes) := by
  induction bytes generalizing b y0 with
  | nil => exact b.inverts_refl _ fun _ _ h => by obtain ⟨r, c, hr, -⟩ := h; exact absurd hr (Nat.not_lt_zero r)
  | cons byte rest ih =>
    simp only [List.length_cons] at hn
    refine Blit.inverts_trans (Blit.row_inverts b x0 (Fin.ofNat 32 y0) byte) (ih _ (y0 + 1) (by omega))
      (fun px py => ?_) fun px py => ?_
    · rw [spriteCovers_iff, spriteCovers_iff]
      constructor
      · rintro ⟨r, c, hr, hc, hx, hy, hb⟩
        cases r with
        | zero => exact .inl ⟨hy, c, hc, hx, hb⟩
        | succ r =>
          refine .inr ⟨r, c, by simpa using hr, hc, hx, ?_, by simpa using hb⟩
          rw [hy]; congr 1; omega
      · rintro (⟨hy, c, hc, hx, hb⟩ | ⟨r, c, hr, hc, hx, hy, hb⟩)
        · exact ⟨0, c, by simp, hc, hx, hy, by simpa using hb⟩
        · refine ⟨r + 1, c, by simpa using hr, hc, hx, ?_, by simpa using hb⟩
          rw [hy]; congr 1; omega
    · rw [spriteCovers_iff]
      rintro ⟨hy, -⟩ ⟨r, c, hr, -, -, hy', -⟩
      have h := congrArg Fin.val (hy.symm.trans hy')
      simp only [Fin.val_ofNat] at h
      omega

end Sys2Proof.Machine
end

