-- ==== Sys2Proof/Laws/PerInstr.lean ====
section
/-!
SUPPORT. The family EncodeInRow: every instruction's opcode lies in its row of the opcode table (30_encoding.md R76).
-/

namespace Sys2Proof.Laws.EncodeInRow

/-- The opcode of `i` matches the match and mask of its row. -/
def Statement (i : Instr) : Prop := i.row.covers (encode i) = true

/-! ## One lemma per format (R74) -/

theorem covers_formatA (c : Nibble) (nnn : Addr) :
    OpcodeRow.covers ⟨formatA c 0x000#12, 0xF000#16⟩ (formatA c nnn) = true := by
  simp [OpcodeRow.covers, and_classMask]

theorem covers_formatXNN (c x : Nibble) (nn : Byte) :
    OpcodeRow.covers ⟨formatA c 0x000#12, 0xF000#16⟩ (formatXNN c x nn) = true := by
  simp [OpcodeRow.covers, and_classMask]

theorem covers_formatXYN (c x y n : Nibble) :
    OpcodeRow.covers ⟨formatA c 0x000#12, 0xF000#16⟩ (formatXYN c x y n) = true := by
  simp [OpcodeRow.covers, and_classMask]

theorem covers_formatXY (c x y f : Nibble) :
    OpcodeRow.covers ⟨formatXY c 0x0#4 0x0#4 f, 0xF00F#16⟩ (formatXY c x y f) = true := by
  simp [OpcodeRow.covers, and_nibbleMask]

theorem covers_formatX (c x : Nibble) (f : Byte) :
    OpcodeRow.covers ⟨formatXNN c 0x0#4 f, 0xF0FF#16⟩ (formatX c x f) = true := by
  simp [OpcodeRow.covers, and_byteMask]

/-! ## One lemma per instruction -/

theorem cls : Statement .cls := rfl

theorem ret : Statement .ret := rfl

theorem call (nnn : Addr) : Statement (.call nnn) := covers_formatA 0x2#4 nnn

theorem jp (nnn : Addr) : Statement (.jp nnn) := covers_formatA 0x1#4 nnn

theorem seImm (x : Nibble) (nn : Byte) : Statement (.seImm x nn) := covers_formatXNN 0x3#4 x nn

theorem sneImm (x : Nibble) (nn : Byte) : Statement (.sneImm x nn) := covers_formatXNN 0x4#4 x nn

theorem seReg (x y : Nibble) : Statement (.seReg x y) := covers_formatXY 0x5#4 x y 0x0#4

theorem sneReg (x y : Nibble) : Statement (.sneReg x y) := covers_formatXY 0x9#4 x y 0x0#4

theorem ldImm (x : Nibble) (nn : Byte) : Statement (.ldImm x nn) := covers_formatXNN 0x6#4 x nn

theorem addImm (x : Nibble) (nn : Byte) : Statement (.addImm x nn) := covers_formatXNN 0x7#4 x nn

theorem ldReg (x y : Nibble) : Statement (.ldReg x y) := covers_formatXY 0x8#4 x y 0x0#4

theorem orReg (x y : Nibble) : Statement (.orReg x y) := covers_formatXY 0x8#4 x y 0x1#4

theorem andReg (x y : Nibble) : Statement (.andReg x y) := covers_formatXY 0x8#4 x y 0x2#4

theorem xorReg (x y : Nibble) : Statement (.xorReg x y) := covers_formatXY 0x8#4 x y 0x3#4

theorem addReg (x y : Nibble) : Statement (.addReg x y) := covers_formatXY 0x8#4 x y 0x4#4

theorem sub (x y : Nibble) : Statement (.sub x y) := covers_formatXY 0x8#4 x y 0x5#4

theorem shr (x y : Nibble) : Statement (.shr x y) := covers_formatXY 0x8#4 x y 0x6#4

theorem subn (x y : Nibble) : Statement (.subn x y) := covers_formatXY 0x8#4 x y 0x7#4

theorem shl (x y : Nibble) : Statement (.shl x y) := covers_formatXY 0x8#4 x y 0xE#4

theorem ldI (nnn : Addr) : Statement (.ldI nnn) := covers_formatA 0xA#4 nnn

theorem jpV0 (nnn : Addr) : Statement (.jpV0 nnn) := covers_formatA 0xB#4 nnn

theorem rnd (x : Nibble) (nn : Byte) : Statement (.rnd x nn) := covers_formatXNN 0xC#4 x nn

theorem drw (x y n : Nibble) : Statement (.drw x y n) := covers_formatXYN 0xD#4 x y n

theorem skp (x : Nibble) : Statement (.skp x) := covers_formatX 0xE#4 x 0x9E#8

theorem sknp (x : Nibble) : Statement (.sknp x) := covers_formatX 0xE#4 x 0xA1#8

theorem ldFromDt (x : Nibble) : Statement (.ldFromDt x) := covers_formatX 0xF#4 x 0x07#8

theorem ldK (x : Nibble) : Statement (.ldK x) := covers_formatX 0xF#4 x 0x0A#8

theorem ldDt (x : Nibble) : Statement (.ldDt x) := covers_formatX 0xF#4 x 0x15#8

theorem ldSt (x : Nibble) : Statement (.ldSt x) := covers_formatX 0xF#4 x 0x18#8

theorem addI (x : Nibble) : Statement (.addI x) := covers_formatX 0xF#4 x 0x1E#8

theorem ldF (x : Nibble) : Statement (.ldF x) := covers_formatX 0xF#4 x 0x29#8

theorem ldB (x : Nibble) : Statement (.ldB x) := covers_formatX 0xF#4 x 0x33#8

theorem stRegs (x : Nibble) : Statement (.stRegs x) := covers_formatX 0xF#4 x 0x55#8

theorem ldRegs (x : Nibble) : Statement (.ldRegs x) := covers_formatX 0xF#4 x 0x65#8

end Sys2Proof.Laws.EncodeInRow
end

