-- ==== Sys2Proof/Laws/Step.lean ====
section
/-!
SUPPORT. What a step can do and what it reports, said once.
-/

namespace Sys2Proof.Machine

@[simp] theorem State.canFetch_iff (s : State) : s.canFetch = true ↔ s.pc.toNat ≤ 0xFFE := by
  simp [State.canFetch]

/-- What `decode` calls unknown is the opcode it was given. -/
theorem decode_unknown {p6 : Bool} {op op' : Word} (h : decode p6 op = .unknown op') : op' = op := by
  revert h
  unfold decode decodeAlu decodeKey decodeMisc
  intro h
  repeat' split at h
  all_goals first | cases h; rfl | cases h

/-- Every case of a step of a running core: the fetch fails, the opcode is unknown, or an instruction runs. -/
theorem step_next_cases {s t : State} (hs : s.status = .running) (h : step s = .next t) :
    (0xFFE < s.pc.toNat ∧ t = s.halt s.fetchError) ∨
    (FetchesUnknown s s.opcodeAtPc ∧
      ((s.cfg.decodeErrorPolicy = .skip ∧ t = (s.setPc (s.pc + 2#16)).stepDecay) ∨
        (s.cfg.decodeErrorPolicy = .halt ∧ t = s.halt (s.decodeErrorRecord s.opcodeAtPc)))) ∨
    (∃ i, FetchesInstr s i ∧ exec i s = .next t) := by
  simp only [step, hs, stepRunning] at h
  split at h
  · rename_i hf
    have hf' := s.canFetch_iff.mp hf
    split at h
    · rename_i i hi
      exact .inr (.inr ⟨i, ⟨hs, hf', hi⟩, h⟩)
    · rename_i op hi
      obtain rfl := decode_unknown hi
      refine .inr (.inl ⟨⟨hs, hf', hi⟩, ?_⟩)
      unfold decodeError at h
      split at h
      · rename_i hp; injection h with h; exact .inl ⟨hp, h.symm⟩
      · rename_i hp; injection h with h; exact .inr ⟨hp, h.symm⟩
  · rename_i hf
    injection h with h
    exact .inl ⟨by rw [s.canFetch_iff] at hf; omega, h.symm⟩

/-- A step of a halted core. -/
theorem step_halted {s : State} {e : ErrorRecord} (hs : s.status = .halted e) : step s = .next s := by
  simp [step, hs]

/-! ## Reports -/

theorem stepReport_of_fetchesInstr {s : State} {i : Instr} (h : FetchesInstr s i) : stepReport s = execReport i s := by
  obtain ⟨h1, h2, h3⟩ := h
  simp only [stepReport, h1, s.canFetch_iff.mpr h2, if_true, State.opcodeAtPc, opcodeOfBytes, h3]

theorem stepReport_of_fetchesUnknown_skip {s : State} {op : Word} (h : FetchesUnknown s op)
    (hp : s.cfg.decodeErrorPolicy = .skip) : stepReport s = .decodeError op s.pc := by
  obtain ⟨h1, h2, h3⟩ := h
  simp only [stepReport, h1, s.canFetch_iff.mpr h2, if_true, State.opcodeAtPc, opcodeOfBytes, h3, hp]

theorem stepReport_of_fetchesUnknown_halt {s : State} {op : Word} (h : FetchesUnknown s op)
    (hp : s.cfg.decodeErrorPolicy = .halt) : stepReport s = .halted (s.decodeErrorRecord op) := by
  obtain ⟨h1, h2, h3⟩ := h
  simp only [stepReport, h1, s.canFetch_iff.mpr h2, if_true, State.opcodeAtPc, opcodeOfBytes, h3, hp]

theorem stepReport_outside {s : State} (hs : s.status = .running) (h : 0xFFE < s.pc.toNat) :
    stepReport s = .halted s.fetchError := by
  have hf : ¬ s.canFetch = true := by rw [s.canFetch_iff]; omega
  simp [stepReport, hs, hf]

/-! ## The host's operations -/

@[simp] theorem HostOp.report_tick (s : State) : HostOp.tick.report s = .nothing := rfl

@[simp] theorem HostOp.report_setKey (k : Nibble) (b : Bool) (s : State) : (HostOp.setKey k b).report s = .nothing := rfl

theorem tick_of_running {s : State} (hs : s.status = .running) : tick s = s.decay := by simp [tick, hs]

theorem setKey_keyDown (s : State) (k j : Nibble) (b : Bool) :
    (setKey k b s).keyDown j = if j = k then b else s.keyDown j := by
  unfold setKey State.keyDown
  by_cases h : j = k
  · subst h; simp
  · have hne : k.toNat ≠ j.toNat := fun e => h (BitVec.eq_of_toNat_eq e.symm)
    simp [h, hne]

end Sys2Proof.Machine
end

