-- ==== Sys2Proof/Tests/Slice0.lean ====
section
/-!
SUPPORT. Tests of one step each, and witnesses. Every word and every expected value is written out from the spec: "Vn"
and "En" are the vectors of 95_test_vectors.md. A `witness_` theorem shows states and operands that meet the hypotheses
of the obligation it names, clause by clause.
-/

namespace Sys2Proof.Tests

open Sys2Proof.Machine

/-! ## Helpers -/

/-- The start state of 95_test_vectors.md: reset, with the opcode at 0x200. -/
def vec (op : Nat) : State := State.reset.withFetchWord 16 op

/-- Set V registers. -/
def regs (l : List (Nibble × Byte)) (s : State) : State := l.foldl (fun s p => s.setReg p.1 p.2) s

/-- Set memory bytes from an address on. -/
def bytes (a : Nat) (l : List Byte) (s : State) : State := s.setMem (s.mem.pokeSpan a l)

/-- Set parameters. -/
def params (f : Config → Config) (s : State) : State := { s with cfg := f s.cfg }

/-- P6 and nothing else, for the words of the optional group. -/
def withP6 : Config := { extMemOps := true }

/-- Press a key. -/
def press (k : Nibble) (s : State) : State := setKey k true s

/-- The stack with `n` entries, all slots equal to `a`. -/
def stacked (n : Fin 17) (a : Word) (s : State) : State := s.setStack (Vector.replicate 16 a) n

/-- One step goes to a next state in which `p` holds. -/
def after (s : State) (p : State → Bool) : Bool :=
  match step s with
  | .next t => p t
  | .fault _ => false
  | .refused _ => false

/-- One step with a draw goes to a next state in which `p` holds. -/
def afterDraw (rnd : Byte) (s : State) (p : State → Bool) : Bool :=
  match stepWithDraw rnd s with
  | .next t => p t
  | .fault _ => false
  | .refused _ => false

/-- The step halts with the record and leaves pc, sp, I, VF and memory as they are. -/
def halts (s : State) (e : ErrorRecord) : Bool :=
  after s fun t => t.status == .halted e && t.pc == s.pc && t.sp == s.sp && t.i == s.i && t.reg 0xF#4 == s.reg 0xF#4 &&
    t.mem == s.mem

/-! ## Well-formedness (30_encoding.md R79): an ill-formed instruction is refused -/

theorem test_wellFormed_refuses_ldB_without_P6 : (Instr.ldB 0x3#4).wellFormed false = false := by decide
theorem test_wellFormed_refuses_stRegs_without_P6 : (Instr.stRegs 0x1#4).wellFormed false = false := by decide
theorem test_wellFormed_refuses_ldRegs_without_P6 : (Instr.ldRegs 0xF#4).wellFormed false = false := by decide
theorem test_wellFormed_accepts_group_with_P6 :
    (Instr.ldB 0x3#4).wellFormed true = true ∧ (Instr.stRegs 0x1#4).wellFormed true = true ∧
      (Instr.ldRegs 0xF#4).wellFormed true = true ∧ (Instr.drw 0x0#4 0x1#4 0x0#4).wellFormed false = true := by decide

/-! ## Decoding: a word of every row of 30_encoding.md R76, written bit by bit from its format of R74 -/

theorem test_decode_control :
    decode false 0b0000000011101110#16 = .instr .ret ∧
    decode false 0b0010_0011_0100_0101#16 = .instr (.call 0x345#12) ∧
    decode false 0b0001_1010_1011_1100#16 = .instr (.jp 0xABC#12) ∧
    decode false 0b0011_0011_0001_0010#16 = .instr (.seImm 0x3#4 0x12#8) ∧
    decode false 0b0100_0011_0001_0010#16 = .instr (.sneImm 0x3#4 0x12#8) ∧
    decode false 0b0101_0001_0010_0000#16 = .instr (.seReg 0x1#4 0x2#4) ∧
    decode false 0b1001_0001_0010_0000#16 = .instr (.sneReg 0x1#4 0x2#4) ∧
    decode false 0b1011_0011_0000_0001#16 = .instr (.jpV0 0x301#12) := by decide

theorem test_decode_alu :
    decode false 0b0110_1010_1100_0101#16 = .instr (.ldImm 0xA#4 0xC5#8) ∧
    decode false 0b0111_1010_1100_0101#16 = .instr (.addImm 0xA#4 0xC5#8) ∧
    decode false 0b1000_0001_0010_0000#16 = .instr (.ldReg 0x1#4 0x2#4) ∧
    decode false 0b1000_0001_0010_0001#16 = .instr (.orReg 0x1#4 0x2#4) ∧
    decode false 0b1000_0001_0010_0010#16 = .instr (.andReg 0x1#4 0x2#4) ∧
    decode false 0b1000_0001_0010_0011#16 = .instr (.xorReg 0x1#4 0x2#4) ∧
    decode false 0b1000_0001_0010_0100#16 = .instr (.addReg 0x1#4 0x2#4) ∧
    decode false 0b1000_0001_0010_0101#16 = .instr (.sub 0x1#4 0x2#4) ∧
    decode false 0b1000_0001_0010_0110#16 = .instr (.shr 0x1#4 0x2#4) ∧
    decode false 0b1000_0001_0010_0111#16 = .instr (.subn 0x1#4 0x2#4) ∧
    decode false 0b1000_0001_0010_1110#16 = .instr (.shl 0x1#4 0x2#4) := by decide

theorem test_decode_index_random_display :
    decode false 0b1010_0010_1111_0000#16 = .instr (.ldI 0x2F0#12) ∧
    decode false 0b1100_0011_0000_1111#16 = .instr (.rnd 0x3#4 0x0F#8) ∧
    decode false 0b1111_0010_0001_1110#16 = .instr (.addI 0x2#4) ∧
    decode false 0b1111_0100_0010_1001#16 = .instr (.ldF 0x4#4) ∧
    decode false 0b0000000011100000#16 = .instr .cls ∧
    decode false 0b1101_0001_0010_0101#16 = .instr (.drw 0x1#4 0x2#4 0x5#4) := by decide

theorem test_decode_keys_timers :
    decode false 0b1110_0001_1001_1110#16 = .instr (.skp 0x1#4) ∧
    decode false 0b1110_0001_1010_0001#16 = .instr (.sknp 0x1#4) ∧
    decode false 0b1111_0101_0000_0111#16 = .instr (.ldFromDt 0x5#4) ∧
    decode false 0b1111_0011_0000_1010#16 = .instr (.ldK 0x3#4) ∧
    decode false 0b1111_0010_0001_0101#16 = .instr (.ldDt 0x2#4) ∧
    decode false 0b1111_0010_0001_1000#16 = .instr (.ldSt 0x2#4) := by decide

theorem test_decode_ext_memory :
    decode true 0b1111_0011_0011_0011#16 = .instr (.ldB 0x3#4) ∧
    decode true 0b1111_0001_0101_0101#16 = .instr (.stRegs 0x1#4) ∧
    decode true 0b1111_1111_0110_0101#16 = .instr (.ldRegs 0xF#4) ∧
    decode false 0b1111_0011_0011_0011#16 = .unknown 0xF333#16 ∧
    decode false 0b1111_0001_0101_0101#16 = .unknown 0xF155#16 ∧
    decode false 0b1111_1111_0110_0101#16 = .unknown 0xFF65#16 := by decide

/-- R80 and V1–V6: illegal words of every class that has some. -/
theorem test_decode_illegal :
    decode true 0x0000#16 = .unknown 0x0000#16 ∧ decode true 0x0123#16 = .unknown 0x0123#16 ∧
    decode true 0x5121#16 = .unknown 0x5121#16 ∧ decode true 0x8008#16 = .unknown 0x8008#16 ∧
    decode true 0x9121#16 = .unknown 0x9121#16 ∧ decode true 0xE000#16 = .unknown 0xE000#16 ∧
    decode true 0xF000#16 = .unknown 0xF000#16 ∧ decode true 0x80EF#16 = .unknown 0x80EF#16 := by decide

/-- 20_memory.md R56: the byte at the lower address is the high byte of the opcode. -/
theorem test_decode_bytes_big_endian :
    decodeBytes false [0x60#8, 0x0A#8, 0x70#8] = .instr (.ldImm 0x0#4 0x0A#8) [0x70#8] ∧
      decodeBytes false [0x60#8] = .truncated := by decide

theorem test_decodeTableWord :
    decodeTableWord 16 0x8124 = some (.addReg 0x1#4 0x2#4) ∧ decodeTableWord 16 0x8128 = none := by decide

/-! ## Fetch, decode errors, halting (vectors 2.1) -/

/-- V1, V9: a skipped decode error advances and decays under P1. -/
theorem test_decode_error_skipped :
    after (params (fun c => { c with stepDecaysTimers := true }) { vec 0x0000 with dt := 0x03#8 })
      (fun t => t.pc == 0x202#16 && t.dt == 0x02#8 && t.status == .running) = true ∧
    stepReport (vec 0x0123) = .decodeError 0x0123#16 0x200#16 := by decide

/-- V7: without P6 the optional group is a decode error. -/
theorem test_decode_error_ext_mem_without_P6 :
    stepReport { vec 0xF333 with cfg := {} } = .decodeError 0xF333#16 0x200#16 := by decide

/-- V8. -/
theorem test_decode_error_halts :
    halts (params (fun c => { c with decodeErrorPolicy := .halt }) (vec 0x0000))
      { code := .decodeError, pc := 0x200#16, opcode := some 0x0000#16, addr := none } = true := by decide

/-- V10, V11, V12. -/
theorem test_fetch_outside_memory :
    halts { State.reset with pc := 0xFFF#16 }
      { code := .addressOutOfBounds, pc := 0xFFF#16, opcode := none, addr := some 0x1000#16 } = true ∧
    halts { State.reset with pc := 0x1000#16 }
      { code := .addressOutOfBounds, pc := 0x1000#16, opcode := none, addr := some 0x1000#16 } = true ∧
    halts { State.reset with pc := 0x10FE#16 }
      { code := .addressOutOfBounds, pc := 0x10FE#16, opcode := none, addr := some 0x10FE#16 } = true := by decide

/-- The halted core of V14. -/
def haltedCore : State :=
  { vec 0x6AFF with
    status := .halted { code := .stackUnderflow, pc := 0x200#16, opcode := some 0x00EE#16, addr := none }, dt := 0x05#8 }

/-- V14. -/
theorem test_halted_step_tick_key :
    after haltedCore (fun t => t.reg 0xA#4 == 0x00#8 && t.pc == 0x200#16 && t.status == haltedCore.status) = true ∧
    (tick haltedCore).dt = 0x05#8 ∧ (setKey 0x3#4 true haltedCore).keyDown 0x3#4 = true := by decide

/-! ## Control transfer (vectors 2.2) -/

/-- V20. -/
theorem test_ret_empty :
    halts (vec 0x00EE) { code := .stackUnderflow, pc := 0x200#16, opcode := some 0x00EE#16, addr := none } = true := by
  decide

/-- V21. -/
theorem test_ret :
    after (stacked 1 0x206#16 (vec 0x00EE)) (fun t => t.pc == 0x206#16 && t.sp == 0 && t.slot 0 == 0x206#16) = true := by
  decide

/-- V22. -/
theorem test_call :
    after (({ State.reset with pc := 0x204#16 } : State).withFetchWord 16 0x2210)
      (fun t => t.slot 0 == 0x206#16 && t.sp == 1 && t.pc == 0x210#16 && t.slot 1 == 0x000#16) = true := by decide

/-- V23. -/
theorem test_call_full :
    halts (stacked 16 0x300#16 (vec 0x2210))
      { code := .stackOverflow, pc := 0x200#16, opcode := some 0x2210#16, addr := none } = true := by decide

/-- V25. -/
theorem test_jp : after (vec 0x1ABC) (fun t => t.pc == 0xABC#16) = true := by decide

/-- V28, V29. -/
theorem test_se_imm :
    after (regs [(0x3#4, 0x12#8)] (vec 0x3312)) (fun t => t.pc == 0x204#16) = true ∧
    after (regs [(0x3#4, 0x12#8)] (vec 0x3313)) (fun t => t.pc == 0x202#16) = true := by decide

/-- V30, V31. -/
theorem test_sne_imm :
    after (regs [(0x3#4, 0x12#8)] (vec 0x4313)) (fun t => t.pc == 0x204#16) = true ∧
    after (regs [(0x3#4, 0x12#8)] (vec 0x4312)) (fun t => t.pc == 0x202#16) = true := by decide

/-- V32, V33. -/
theorem test_se_reg :
    after (regs [(0x1#4, 0x09#8)] (vec 0x5110)) (fun t => t.pc == 0x204#16) = true ∧
    after (regs [(0x1#4, 0x07#8), (0x2#4, 0x08#8)] (vec 0x5120)) (fun t => t.pc == 0x202#16) = true := by decide

/-- V34, V35. -/
theorem test_sne_reg :
    after (regs [(0x1#4, 0x09#8)] (vec 0x9110)) (fun t => t.pc == 0x202#16) = true ∧
    after (regs [(0x1#4, 0x07#8), (0x2#4, 0x08#8)] (vec 0x9120)) (fun t => t.pc == 0x204#16) = true := by decide

/-- V36: a skip at the end of memory does not fetch the skipped word. -/
theorem test_skip_at_end_of_memory :
    after (({ State.reset with pc := 0xFFC#16 } : State).withFetchWord 16 0x3000)
      (fun t => t.pc == 0x1000#16 && t.status == .running) = true := by decide

/-- V39, V40. -/
theorem test_jp_v0 :
    after (regs [(0x0#4, 0xFF#8)] (vec 0xBFFF)) (fun t => t.pc == 0x10FE#16) = true ∧
    after (regs [(0x0#4, 0x01#8), (0x5#4, 0x80#8)] (vec 0xB500)) (fun t => t.pc == 0x501#16) = true := by decide

/-! ## Register, arithmetic and logic (vectors 2.3) -/

/-- V50. -/
theorem test_ld_imm : after (vec 0x6AFF) (fun t => t.reg 0xA#4 == 0xFF#8 && t.pc == 0x202#16) = true := by decide

/-- V51, V52. -/
theorem test_add_imm :
    after (regs [(0xF#4, 0xFF#8)] (vec 0x7F01)) (fun t => t.reg 0xF#4 == 0x00#8) = true ∧
    after (regs [(0x0#4, 0xFF#8), (0xF#4, 0x05#8)] (vec 0x7001))
      (fun t => t.reg 0x0#4 == 0x00#8 && t.reg 0xF#4 == 0x05#8) = true := by decide

/-- V53. -/
theorem test_ld_reg :
    after (regs [(0x0#4, 0x11#8), (0x1#4, 0x22#8)] (vec 0x8010))
      (fun t => t.reg 0x0#4 == 0x22#8 && t.reg 0x1#4 == 0x22#8) = true := by decide

/-- V54. -/
theorem test_or :
    after (regs [(0x0#4, 0xF0#8), (0x1#4, 0x0F#8), (0xF#4, 0x01#8)] (vec 0x8011))
      (fun t => t.reg 0x0#4 == 0xFF#8 && t.reg 0xF#4 == 0x01#8) = true := by decide

/-- V55. -/
theorem test_and :
    after (regs [(0x0#4, 0xF0#8), (0x1#4, 0x3C#8)] (vec 0x8012)) (fun t => t.reg 0x0#4 == 0x30#8) = true := by decide

/-- V56, V57. -/
theorem test_xor :
    after (regs [(0x0#4, 0xF0#8), (0x1#4, 0x3C#8)] (vec 0x8013)) (fun t => t.reg 0x0#4 == 0xCC#8) = true ∧
    after (regs [(0x0#4, 0x5A#8)] (vec 0x8003)) (fun t => t.reg 0x0#4 == 0x00#8) = true := by decide

/-- E3. -/
theorem test_add_reg :
    after (regs [(0x0#4, 250#8), (0x1#4, 10#8)] (vec 0x8014))
      (fun t => t.reg 0x0#4 == 4#8 && t.reg 0xF#4 == 0x01#8) = true ∧
    after (regs [(0x0#4, 10#8), (0x1#4, 5#8), (0xF#4, 0x09#8)] (vec 0x8014))
      (fun t => t.reg 0x0#4 == 15#8 && t.reg 0xF#4 == 0x00#8) = true := by decide

/-- V60, V61, V62: x = y, and the flag written last when x = F. -/
theorem test_add_reg_aliases :
    after (regs [(0x0#4, 0x80#8)] (vec 0x8004)) (fun t => t.reg 0x0#4 == 0x00#8 && t.reg 0xF#4 == 0x01#8) = true ∧
    after (regs [(0xF#4, 0xFF#8), (0x1#4, 0x01#8)] (vec 0x8F14)) (fun t => t.reg 0xF#4 == 0x01#8) = true ∧
    after (regs [(0xF#4, 0x10#8), (0x1#4, 0x01#8)] (vec 0x8F14)) (fun t => t.reg 0xF#4 == 0x00#8) = true := by decide

/-- E4, V63. -/
theorem test_sub :
    after (regs [(0x0#4, 5#8), (0x1#4, 10#8)] (vec 0x8015))
      (fun t => t.reg 0x0#4 == 251#8 && t.reg 0xF#4 == 0x00#8) = true ∧
    after (regs [(0x0#4, 7#8), (0x1#4, 7#8)] (vec 0x8015))
      (fun t => t.reg 0x0#4 == 0#8 && t.reg 0xF#4 == 0x01#8) = true := by decide

/-- V65, V66. -/
theorem test_sub_with_VF :
    after (regs [(0xF#4, 3#8), (0x1#4, 5#8)] (vec 0x8F15)) (fun t => t.reg 0xF#4 == 0x00#8) = true ∧
    after (regs [(0x0#4, 10#8), (0xF#4, 3#8)] (vec 0x80F5))
      (fun t => t.reg 0x0#4 == 7#8 && t.reg 0xF#4 == 0x01#8) = true := by decide

/-- V67, V68. -/
theorem test_subn :
    after (regs [(0x0#4, 5#8), (0x1#4, 10#8)] (vec 0x8017))
      (fun t => t.reg 0x0#4 == 5#8 && t.reg 0xF#4 == 0x01#8) = true ∧
    after (regs [(0x0#4, 10#8), (0x1#4, 5#8)] (vec 0x8017))
      (fun t => t.reg 0x0#4 == 251#8 && t.reg 0xF#4 == 0x00#8) = true := by decide

/-- V75, V77. -/
theorem test_shr :
    after (regs [(0x0#4, 0xFF#8), (0x1#4, 0x04#8)] (vec 0x8016))
      (fun t => t.reg 0x0#4 == 0x7F#8 && t.reg 0xF#4 == 0x01#8 && t.reg 0x1#4 == 0x04#8) = true ∧
    after (regs [(0xF#4, 0x02#8)] (vec 0x8F06)) (fun t => t.reg 0xF#4 == 0x00#8) = true := by decide

/-- V76. -/
theorem test_shr_P3 :
    after (params (fun c => { c with shiftUsesVy := true }) (regs [(0x0#4, 0xFF#8), (0x1#4, 0x04#8)] (vec 0x8016)))
      (fun t => t.reg 0x0#4 == 0x02#8 && t.reg 0xF#4 == 0x00#8) = true := by decide

/-- V78, V85. -/
theorem test_shl :
    after (regs [(0x0#4, 0x81#8)] (vec 0x800E)) (fun t => t.reg 0x0#4 == 0x02#8 && t.reg 0xF#4 == 0x01#8) = true ∧
    after (regs [(0xF#4, 0x81#8)] (vec 0x8F0E)) (fun t => t.reg 0xF#4 == 0x01#8) = true := by decide

/-- V83. -/
theorem test_shl_P3 :
    after (params (fun c => { c with shiftUsesVy := true }) (regs [(0x0#4, 0x01#8), (0x1#4, 0x81#8)] (vec 0x801E)))
      (fun t => t.reg 0x0#4 == 0x02#8 && t.reg 0xF#4 == 0x01#8) = true := by decide

/-! ## Index register and random byte (vectors 2.4) -/

/-- V90. -/
theorem test_ld_I : after (vec 0xA2F0) (fun t => t.i == 0x2F0#16) = true := by decide

/-- V91, V93: the host's byte, masked. -/
theorem test_rnd :
    afterDraw 0xA7#8 (vec 0xC30F) (fun t => t.reg 0x3#4 == 0x07#8) = true ∧
    afterDraw 0xFF#8 (regs [(0x3#4, 0x77#8)] (vec 0xC300)) (fun t => t.reg 0x3#4 == 0x00#8) = true := by decide

/-- V95, V98. -/
theorem test_add_I :
    after (regs [(0x0#4, 0x01#8), (0xF#4, 0x07#8)] { vec 0xF01E with i := 0x0FFF#16 })
      (fun t => t.i == 0x1000#16 && t.reg 0xF#4 == 0x07#8) = true ∧
    after (regs [(0x0#4, 0x20#8)] { vec 0xF01E with i := 0xFFF0#16 }) (fun t => t.i == 0x0010#16) = true := by decide

/-- V96, V97. -/
theorem test_add_I_P4 :
    after (params (fun c => { c with fx1eSetsVf := true }) (regs [(0x0#4, 0x01#8)] { vec 0xF01E with i := 0x0FFF#16 }))
      (fun t => t.i == 0x1000#16 && t.reg 0xF#4 == 0x01#8) = true ∧
    after (params (fun c => { c with fx1eSetsVf := true }) (regs [(0xF#4, 0x20#8)] { vec 0xFF1E with i := 0x0100#16 }))
      (fun t => t.i == 0x0120#16 && t.reg 0xF#4 == 0x00#8) = true := by decide

/-- V100, V101. -/
theorem test_ld_F :
    after (regs [(0x0#4, 0x1A#8)] (vec 0xF029)) (fun t => t.i == 0x032#16) = true ∧
    after (regs [(0x0#4, 0xFF#8)] (vec 0xF029)) (fun t => t.i == 0x04B#16) = true := by decide

/-! ## Display (vectors 2.5) -/

/-- V118 at a lit pixel. -/
theorem test_cls :
    after (regs [(0xF#4, 0x01#8)] { vec 0x00E0 with disp := Display.clear.put 63 31 true })
      (fun t => !t.disp.pixel 63 31 && t.reg 0xF#4 == 0x01#8) = true := by decide

/-- V112: wrapping in both directions; three pixels that are set and one that is not. -/
theorem test_drw_wraps :
    after (regs [(0x1#4, 0x3E#8), (0x2#4, 0x1E#8)] (vec 0xD125))
      (fun t => t.disp.pixel 63 30 && t.disp.pixel 1 30 && t.disp.pixel 0 2 && !t.disp.pixel 0 0 &&
        t.reg 0xF#4 == 0x00#8) = true := by decide

/-- V116 (x = F: the old VF is the column) and a collision with a lit pixel. -/
theorem test_drw_VF_and_collision :
    after (regs [(0xF#4, 0x08#8)] (vec 0xDF05))
      (fun t => t.disp.pixel 8 0 && t.disp.pixel 11 0 && !t.disp.pixel 0 0 && t.reg 0xF#4 == 0x00#8) = true ∧
    after { vec 0xD005 with disp := Display.clear.put 3 4 true }
      (fun t => !t.disp.pixel 3 4 && t.disp.pixel 2 4 && t.reg 0xF#4 == 0x01#8) = true := by decide

/-- V115. -/
theorem test_drw_outside_memory :
    halts (regs [(0xF#4, 0x01#8)] { vec 0xD013 with i := 0xFFE#16 })
      { code := .addressOutOfBounds, pc := 0x200#16, opcode := some 0xD013#16, addr := some 0x1000#16 } = true := by
  decide

/-- V114: n = 0 reads no memory. -/
theorem test_drw_no_rows :
    after (regs [(0xF#4, 0x01#8)] { vec 0xD010 with i := 0x1234#16 })
      (fun t => t.reg 0xF#4 == 0x00#8 && t.status == .running) = true := by decide

/-! ## Keys and timers (vectors 2.6) -/

/-- V121, and no key pressed. -/
theorem test_skp :
    after (press 0x5#4 (regs [(0x0#4, 0x15#8)] (vec 0xE09E))) (fun t => t.pc == 0x204#16) = true ∧
    after (regs [(0x0#4, 0x15#8)] (vec 0xE09E)) (fun t => t.pc == 0x202#16) = true := by decide

/-- V122, V123. -/
theorem test_sknp :
    after (regs [(0x0#4, 0x03#8)] (vec 0xE0A1)) (fun t => t.pc == 0x204#16) = true ∧
    after (press 0x3#4 (regs [(0x0#4, 0x03#8)] (vec 0xE0A1))) (fun t => t.pc == 0x202#16) = true := by decide

/-- V124, V125. -/
theorem test_ld_from_DT :
    after { vec 0xF507 with dt := 0x3C#8 } (fun t => t.reg 0x5#4 == 0x3C#8 && t.dt == 0x3C#8) = true ∧
    after (params (fun c => { c with stepDecaysTimers := true }) { vec 0xF507 with dt := 0x3C#8 })
      (fun t => t.reg 0x5#4 == 0x3C#8 && t.dt == 0x3B#8) = true := by decide

/-- V126, V127. -/
theorem test_ld_K_blocks :
    stepReport (vec 0xF30A) = .blocked ∧
    after (params (fun c => { c with stepDecaysTimers := true }) { vec 0xF30A with dt := 0x05#8 })
      (fun t => t.pc == 0x200#16 && t.dt == 0x05#8) = true := by decide

/-- V128. -/
theorem test_ld_K_lowest :
    after (press 0x9#4 (press 0x3#4 (vec 0xF30A))) (fun t => t.reg 0x3#4 == 0x03#8 && t.pc == 0x202#16) = true := by
  decide

/-- V129, V130. -/
theorem test_ld_DT :
    after (regs [(0x2#4, 0x3C#8)] (vec 0xF215)) (fun t => t.dt == 0x3C#8) = true ∧
    after (params (fun c => { c with stepDecaysTimers := true }) (regs [(0x0#4, 0x05#8)] (vec 0xF015)))
      (fun t => t.dt == 0x04#8) = true := by decide

/-- V131, V132. -/
theorem test_ld_ST :
    after (regs [(0x2#4, 0x05#8)] (vec 0xF218)) (fun t => t.st == 0x05#8 && soundActive t) = true ∧
    after (params (fun c => { c with stepDecaysTimers := true }) (regs [(0x0#4, 0x01#8)] (vec 0xF018)))
      (fun t => t.st == 0x00#8 && !soundActive t) = true := by decide

/-- V133, V134. -/
theorem test_tick :
    (tick { State.reset with dt := 0x01#8 }).dt = 0x00#8 ∧ (tick { State.reset with dt := 0x01#8 }).st = 0x00#8 ∧
    (tick { State.reset with st := 0x03#8 }).dt = 0x00#8 ∧ (tick { State.reset with st := 0x03#8 }).st = 0x02#8 := by
  decide

/-- R120: a tick and a key hand nothing back, on a halted core too; a step hands back its record. -/
theorem test_reports :
    HostOp.tick.report State.reset = .nothing ∧ HostOp.tick.report haltedCore = .nothing ∧
      (HostOp.setKey 0x7#4 true).report State.reset = .nothing ∧ (HostOp.setKey 0x7#4 true).report haltedCore = .nothing ∧
      (HostOp.step 0x00#8).report haltedCore =
        .halted { code := .stackUnderflow, pc := 0x200#16, opcode := some 0x00EE#16, addr := none } := by decide

/-! ## Memory transfer (vectors 2.7) -/

/-- V140, V142. -/
theorem test_ld_B :
    after (regs [(0x3#4, 234#8)] { vec 0xF333 with i := 0x300#16 })
      (fun t => t.mem.peek 0x300 == 2#8 && t.mem.peek 0x301 == 3#8 && t.mem.peek 0x302 == 4#8 && t.i == 0x300#16) = true ∧
    after (regs [(0x0#4, 255#8)] { vec 0xF033 with i := 0x300#16 })
      (fun t => t.mem.peek 0x300 == 2#8 && t.mem.peek 0x301 == 5#8 && t.mem.peek 0x302 == 5#8) = true := by decide

/-- V143. -/
theorem test_ld_B_outside_memory :
    halts (regs [(0x3#4, 234#8)] { vec 0xF333 with i := 0xFFE#16 })
      { code := .addressOutOfBounds, pc := 0x200#16, opcode := some 0xF333#16, addr := some 0x1000#16 } = true := by
  decide

/-- V144, V145. -/
theorem test_st_regs :
    after (regs [(0x0#4, 1#8), (0x1#4, 2#8), (0x2#4, 9#8)] { vec 0xF155 with i := 0x300#16 })
      (fun t => t.mem.peek 0x300 == 1#8 && t.mem.peek 0x301 == 2#8 && t.mem.peek 0x302 == 0#8 && t.i == 0x300#16) = true ∧
    after (params (fun c => { c with loadStoreIncrementsI := true }) { vec 0xF155 with i := 0x300#16 })
      (fun t => t.i == 0x302#16) = true := by decide

/-- V148. -/
theorem test_st_regs_outside_memory :
    halts { vec 0xFF55 with i := 0xFF8#16 }
      { code := .addressOutOfBounds, pc := 0x200#16, opcode := some 0xFF55#16, addr := some 0x1000#16 } = true := by
  decide

/-- V146, V147. -/
theorem test_ld_regs :
    after (bytes 0x300 [0x07#8, 0x09#8, 0x0B#8] { vec 0xF165 with i := 0x300#16 })
      (fun t => t.reg 0x0#4 == 7#8 && t.reg 0x1#4 == 9#8 && t.reg 0x2#4 == 0#8) = true ∧
    after (bytes 0x30F [0xAA#8] { vec 0xFF65 with i := 0x300#16 })
      (fun t => t.reg 0xE#4 == 0#8 && t.reg 0xF#4 == 0xAA#8) = true := by decide

theorem test_ld_regs_outside_memory :
    halts { vec 0xF165 with i := 0xFFF#16 }
      { code := .addressOutOfBounds, pc := 0x200#16, opcode := some 0xF165#16, addr := some 0x1000#16 } = true := by
  decide

/-! ## Memory and reset -/

/-- 20_memory.md R58: first and last row of glyph F, and the byte after the font. -/
theorem test_font :
    State.reset.mem.peek 0x04B = 0xF0#8 ∧ State.reset.mem.peek 0x04F = 0x80#8 ∧ State.reset.mem.peek 0x050 = 0x00#8 := by
  decide

/-- Writing what an unlisted address reads as removes the entry; the font can be overwritten (90_conflicts.md C9). -/
theorem test_memory_canonical :
    (Memory.poke [] 0x000 0x01#8).peek 0x000 = 0x01#8 ∧
      (Memory.poke (Memory.poke [] 0x000 0x01#8) 0x000 0xF0#8) = [] := by decide

/-- E10 (R260): the ROM at 0x200 and MEM_FILL after it. -/
theorem test_create_core :
    (match createCore { memFill := [(0x202, 0x77#8), (0x201, 0x66#8), (0x010, 0x55#8)] } (some [0x60#8, 0x0A#8]) with
      | .ready s => s.mem.peek 0x200 == 0x60#8 && s.mem.peek 0x201 == 0x0A#8 && s.mem.peek 0x202 == 0x77#8 &&
          s.mem.peek 0x010 == 0x10#8 && s.mem.peek 0x203 == 0x00#8 && s.pc == 0x200#16
      | .loadError => false
      | .refused _ => false) = true := by decide

theorem test_core_runs_the_placed_word :
    (match Sys2Proof.core.step (State.reset.withFetchWord 16 0x6A5C) with
      | .next t => State.reg t 0xA#4 == 0x5C#8
      | .fault _ => false
      | .refused _ => false) = true := by decide

/-! ## Witnesses: reset and the host's operations -/

theorem witness_CreateLoadsFontFillAndRom :
    ({} : Config).fx0aOnRelease = false ∧ (List.replicate 3584 0x60#8).length ≤ 3584 ∧
      3584 < (List.replicate 3585 0x60#8).length :=
  ⟨rfl, List.length_replicate.le, Nat.lt_of_lt_of_eq (by decide) List.length_replicate.symm⟩

/-- The boundary addresses of the clauses on memory: the last font byte, the first byte after the font, the byte before
the ROM, the ROM's bytes, the byte after them and the last byte. -/
theorem witness_CreateLoadsFontFillAndRom_addresses :
    (match createCore { memFill := [(0x050, 0x11#8), (0x1FF, 0x22#8), (0xFFF, 0x33#8)] } (some [0x60#8, 0x0A#8]) with
      | .ready s => [0x04F, 0x050, 0x1FF, 0x200, 0x201, 0x202, 0xFFF].map s.mem.peek ==
          [0x80#8, 0x11#8, 0x22#8, 0x60#8, 0x0A#8, 0x00#8, 0x33#8]
      | .loadError => false
      | .refused _ => false) = true := by decide

theorem witness_HostResetIsFreshOrLeavesStateUnmodified :
    haltedCore.cfg.fx0aOnRelease = false ∧ (List.replicate 3584 0x60#8).length ≤ 3584 ∧
      3584 < (List.replicate 3585 0x60#8).length ∧
      [0x60#8, 0x0A#8].length ≤ 3584 ∧ (hostReset (some [0x60#8, 0x0A#8]) haltedCore).status = .running :=
  ⟨by decide, List.length_replicate.le, Nat.lt_of_lt_of_eq (by decide) List.length_replicate.symm, by decide, by decide⟩

theorem witness_TickDecaysBothTimers :
    (vec 0x6AFF).status = .running ∧ ∃ e, haltedCore.status = .halted e := ⟨by decide, _, rfl⟩

/-- E9: five ticks from 5 and a sixth. -/
theorem witness_RepeatedTicksReachZeroAndStay :
    ({ vec 0x6AFF with dt := 0x05#8, st := 0x05#8 } : State).status = .running ∧
      (tick^[5] { vec 0x6AFF with dt := 0x05#8 }).dt = 0x00#8 ∧
      (tick^[6] { vec 0x6AFF with dt := 0x05#8 }).dt = 0x00#8 := by decide

theorem witness_SetKeyWritesOneKey :
    (0x0#4 ≠ 0xF#4) ∧ (setKey 0xF#4 true State.reset).keyDown 0xF#4 = true ∧
      (setKey 0xF#4 true State.reset).keyDown 0x0#4 = false := by decide

/-! ## Witnesses: the step -/

/-- At 0x200 and at the last address that can be fetched. -/
theorem witness_StepRunsTheDecodedInstruction :
    FetchesInstr (vec 0x6AFF) (.ldImm 0xA#4 0xFF#8) ∧
      FetchesInstr (({ State.reset with pc := 0xFFE#16 } : State).withFetchWord 16 0x00E0) .cls :=
  ⟨⟨by decide, by decide, by decide⟩, ⟨by decide, by decide, by decide⟩⟩

theorem witness_FetchOutsideMemoryHalts :
    (State.reset.status = .running ∧ 0xFFE < ({ State.reset with pc := 0xFFF#16 } : State).pc.toNat) ∧
      (State.reset.status = .running ∧ 0xFFE < ({ State.reset with pc := 0x1000#16 } : State).pc.toNat) := by decide

theorem witness_DecodeErrorIsSkippedOrFatal :
    (FetchesUnknown (vec 0x0000) 0x0000#16 ∧ (vec 0x0000).cfg.decodeErrorPolicy = .skip) ∧
      (FetchesUnknown (params (fun c => { c with decodeErrorPolicy := .halt }) (vec 0x8008)) 0x8008#16 ∧
        (params (fun c => { c with decodeErrorPolicy := .halt }) (vec 0x8008)).cfg.decodeErrorPolicy = .halt) :=
  ⟨⟨⟨by decide, by decide, by decide⟩, by decide⟩, ⟨⟨by decide, by decide, by decide⟩, by decide⟩⟩

theorem witness_HaltedCoreStaysHalted :
    (∃ e, haltedCore.status = .halted e) ∧ (∃ t, (HostOp.step 0x00#8).run haltedCore = .next t) ∧
      (∃ t, (HostOp.reset (some [])).run haltedCore = .next t ∧ t.status = .running) :=
  ⟨⟨_, rfl⟩, ⟨_, rfl⟩, ⟨_, rfl, by decide⟩⟩

theorem witness_FatalErrorsArePrecise :
    (vec 0x00EE).status = .running ∧ ∃ t e, step (vec 0x00EE) = .next t ∧ t.status = .halted e :=
  ⟨by decide, _, _, rfl, rfl⟩

/-- A fetch, a decode error and each instruction that can halt. -/
theorem witness_EveryHaltHasAListedCause :
    (∃ t e, step { State.reset with pc := 0xFFF#16 } = .next t ∧ t.status = .halted e) ∧
    (∃ t e, step (params (fun c => { c with decodeErrorPolicy := .halt }) (vec 0x0000)) = .next t ∧
      t.status = .halted e) ∧
    (∃ t e, step (stacked 16 0x300#16 (vec 0x2210)) = .next t ∧ t.status = .halted e) ∧
    (∃ t e, step (vec 0x00EE) = .next t ∧ t.status = .halted e) ∧
    (∃ t e, step { vec 0xD013 with i := 0xFFE#16 } = .next t ∧ t.status = .halted e) ∧
    (∃ t e, step { vec 0xF333 with i := 0xFFE#16 } = .next t ∧ t.status = .halted e) ∧
    (∃ t e, step { vec 0xFF55 with i := 0xFF8#16 } = .next t ∧ t.status = .halted e) ∧
    (∃ t e, step { vec 0xFF65 with i := 0xFF8#16 } = .next t ∧ t.status = .halted e) :=
  ⟨⟨_, _, rfl, rfl⟩, ⟨_, _, rfl, rfl⟩, ⟨_, _, rfl, rfl⟩, ⟨_, _, rfl, rfl⟩, ⟨_, _, rfl, rfl⟩, ⟨_, _, rfl, rfl⟩,
    ⟨_, _, rfl, rfl⟩, ⟨_, _, rfl, rfl⟩⟩

/-- A blocked step, a fatal one, and one that goes on. -/
theorem witness_StepDecaysTimersUnderP1 :
    (∃ t, step (vec 0xF30A) = .next t ∧ stepReport (vec 0xF30A) = .blocked) ∧
    (∃ t, step (vec 0x00EE) = .next t ∧ t.status ≠ .running) ∧
    (∃ t, step (vec 0xF015) = .next t ∧ stepReport (vec 0xF015) ≠ .blocked ∧ t.status = .running) :=
  ⟨⟨_, rfl, by decide⟩, ⟨_, rfl, by decide⟩, ⟨_, rfl, by decide, by decide⟩⟩

theorem witness_StraightLineInstructionsAdvanceByTwo :
    mayNotAdvance (.ldImm 0xA#4 0xFF#8) = false ∧
      ∃ t, exec (.ldImm 0xA#4 0xFF#8) State.reset = .next t ∧ t.status = .running := ⟨by decide, _, rfl, by decide⟩

theorem witness_EveryStepAnswersANextState : State.reset.cfg.fx0aOnRelease = false := by decide

theorem witness_PlacedInstructionRunsNext : State.reset.mem.wf = true ∧ (vec 0xF333).mem.wf = true := by decide

/-! ## Witnesses: instructions -/

/-- x = F and x ≠ F. -/
theorem witness_WroteRegAndFlag : (0x0#4 : Nibble) ≠ 0xF#4 ∧ (0xE#4 : Nibble) ≠ 0xF#4 := by decide

theorem witness_AddToIndex : (params (fun c => { c with fx1eSetsVf := true }) State.reset).cfg.fx1eSetsVf = true := by
  decide

theorem witness_RandomByteIsTheHostsDrawMasked :
    FetchesInstr (vec 0xC30F) (.rnd 0x3#4 0x0F#8) ∧
      (FetchesInstr (vec 0x00E0) .cls ∧ ∀ x nn, Instr.cls ≠ .rnd x nn) :=
  ⟨⟨by decide, by decide, by decide⟩, ⟨by decide, by decide, by decide⟩, fun _ _ h => (nomatch h)⟩

theorem witness_RandomByteIsAFreeDrawMasked :
    ({ State.reset with rndIn := [0xA7#8, 0x5C#8] } : State).rndIn = 0xA7#8 :: [0x5C#8] ∧ State.reset.rndIn = [] := by
  decide

theorem witness_OnlyRndReadsTheDraw :
    (∀ x nn, Instr.cls ≠ .rnd x nn) ∧ ∃ t, exec .cls State.reset = .next t := ⟨fun _ _ h => (nomatch h), _, rfl⟩

/-- Room for the last entry, and none. -/
theorem witness_CallPushesTheNextAddress :
    (stacked 15 0x300#16 State.reset).sp.val < 16 ∧ (stacked 16 0x300#16 State.reset).sp.val = 16 := by decide

/-- One entry, a full stack, and none. -/
theorem witness_ReturnPopsIntoPc :
    (stacked 1 0x206#16 State.reset).sp.val = (0 : Fin 16).val + 1 ∧
      (stacked 16 0x206#16 State.reset).sp.val = (15 : Fin 16).val + 1 ∧ State.reset.sp.val = 0 := by decide

theorem witness_ReturnUndoesCall :
    (stacked 15 0x300#16 State.reset).sp.val < 16 ∧
      ∃ t, exec (.call 0x210#12) (stacked 15 0x300#16 State.reset) = .next t := ⟨by decide, _, rfl⟩

/-- The condition holds and fails. -/
theorem witness_SkipsCompareRegisters :
    State.reset.reg 0x3#4 = 0x00#8 ∧ State.reset.reg 0x3#4 ≠ 0x13#8 ∧ State.reset.reg 0x1#4 = State.reset.reg 0x2#4 ∧
      (regs [(0x1#4, 0x07#8)] State.reset).reg 0x1#4 ≠ (regs [(0x1#4, 0x07#8)] State.reset).reg 0x2#4 := by decide

/-- No row; a sprite that ends at 0xFFF; one that goes one byte too far; one that starts outside memory. -/
theorem witness_DrawInvertsTheSpritesPixels :
    ((0x0#4 : Nibble).toNat = 0 ∨ (0x1234#16 : Word).toNat + (0x0#4 : Nibble).toNat ≤ 0x1000) ∧
    ((0x5#4 : Nibble).toNat = 0 ∨ (0xFFB#16 : Word).toNat + (0x5#4 : Nibble).toNat ≤ 0x1000) ∧
    ¬ ((0x5#4 : Nibble).toNat = 0 ∨ (0xFFC#16 : Word).toNat + (0x5#4 : Nibble).toNat ≤ 0x1000) ∧
    ¬ ((0x1#4 : Nibble).toNat = 0 ∨ (0x1000#16 : Word).toNat + (0x1#4 : Nibble).toNat ≤ 0x1000) := by decide

/-- Glyph 0 at (62, 30) covers (63, 30) with bit 6 of its first row, and (1, 0) with bit 4 of its third. -/
theorem witness_SpriteCovers :
    SpriteCovers 62 30 [0xF0#8, 0x90#8, 0x90#8, 0x90#8, 0xF0#8] 63 30 ∧
      SpriteCovers 62 30 [0xF0#8, 0x90#8, 0x90#8, 0x90#8, 0xF0#8] 1 0 :=
  ⟨⟨0, 1, by decide⟩, ⟨2, 3, by decide⟩⟩

/-- A byte of zeros covers nothing. -/
theorem witness_not_SpriteCovers : ¬ SpriteCovers 0 0 [0x00#8] 0 0 := by
  rintro ⟨r, c, hr, hc, -, -, h⟩
  obtain rfl : r = 0 := by simpa using hr
  simp at h

/-- A lone lit pixel drawn over twice: the first draw clears it with VF = 1, and the second sets it again with VF = 0
(log entry 14). -/
theorem witness_DrawingTwiceRestoresTheDisplay :
    (0x0#4 : Nibble) ≠ 0xF#4 ∧ (0x300#16 : Word).toNat + (0x1#4 : Nibble).toNat ≤ 0x1000 ∧
      ∃ t u, exec (.drw 0x0#4 0x0#4 0x1#4) (bytes 0x300 [0x80#8]
            { State.reset with i := 0x300#16, disp := Display.clear.put 0 0 true }) = .next t ∧
          exec (.drw 0x0#4 0x0#4 0x1#4) t = .next u ∧
          t.disp.pixel 0 0 = false ∧ t.reg 0xF#4 = 0x01#8 ∧ u.disp.pixel 0 0 = true ∧ u.reg 0xF#4 = 0x00#8 :=
  ⟨by decide, by decide, _, _, rfl, rfl, by decide, by decide, by decide, by decide⟩

theorem witness_OnlyClsAndDrwWriteTheDisplay :
    Instr.ret ≠ .cls ∧ (∀ x y n, Instr.ret ≠ .drw x y n) ∧ ∃ t, exec .ret (stacked 1 0x206#16 State.reset) = .next t :=
  ⟨by decide, fun _ _ _ h => (nomatch h), _, rfl⟩

theorem witness_SkipsTestAKey :
    (press 0x5#4 State.reset).keyDown (BitVec.ofNat 4 (0x15#8 : Byte).toNat) = true ∧
      ¬ State.reset.keyDown (BitVec.ofNat 4 (0x15#8 : Byte).toNat) = true := by decide

/-- The lowest of two keys, key 0 and key F alone, and no key. -/
theorem witness_KeyWaitStoresTheLowestKey :
    State.reset.cfg.fx0aOnRelease = false ∧
    ((press 0x9#4 (press 0x3#4 State.reset)).keyDown 0x3#4 = true ∧
      ∀ j : Nibble, j.toNat < 3 → (press 0x9#4 (press 0x3#4 State.reset)).keyDown j = false) ∧
    (press 0x0#4 State.reset).keyDown 0x0#4 = true ∧
    ((press 0xF#4 State.reset).keyDown 0xF#4 = true ∧
      ∀ j : Nibble, j.toNat < 15 → (press 0xF#4 State.reset).keyDown j = false) ∧
    (∀ k, State.reset.keyDown k = false) := by decide

theorem witness_BlockedStepRepeatsUntilAKeyIsSet :
    (vec 0xF30A).cfg.fx0aOnRelease = false ∧ FetchesInstr (vec 0xF30A) (.ldK 0x3#4) ∧
      ∀ k, (vec 0xF30A).keyDown k = false := ⟨by decide, ⟨by decide, by decide, by decide⟩, by decide⟩

theorem witness_KeyWaitOnReleaseIsRefused :
    ({ fx0aOnRelease := true } : Config).fx0aOnRelease = true ∧
      (params (fun c => { c with fx0aOnRelease := true }) State.reset).cfg.fx0aOnRelease = true := by decide

theorem witness_NoInstructionReadsTheSoundTimer : ∃ t, exec (.ldSt 0x2#4) State.reset = .next t := ⟨_, rfl⟩

theorem witness_OnlyKeyInstructionsReadTheLatch :
    (∀ x, Instr.cls ≠ .skp x) ∧ (∀ x, Instr.cls ≠ .sknp x) ∧ (∀ x, Instr.cls ≠ .ldK x) ∧
      ∃ t, exec .cls State.reset = .next t :=
  ⟨fun _ h => (nomatch h), fun _ h => (nomatch h), fun _ h => (nomatch h), _, rfl⟩

/-- Three bytes that end at 0xFFF, and one byte too far. -/
theorem witness_StoreDecimalDigits :
    State.reset.mem.wf = true ∧ (0xFFD#16 : Word).toNat + 3 ≤ 0x1000 ∧ ¬ (0xFFE#16 : Word).toNat + 3 ≤ 0x1000 := by
  decide

/-- Sixteen and one registers that end at 0xFFF, and one byte too far. -/
theorem witness_StoreRegisters :
    State.reset.mem.wf = true ∧ (0xFF0#16 : Word).toNat + (0xF#4 : Nibble).toNat + 1 ≤ 0x1000 ∧
      (0xFFF#16 : Word).toNat + (0x0#4 : Nibble).toNat + 1 ≤ 0x1000 ∧
      ¬ (0xFF1#16 : Word).toNat + (0xF#4 : Nibble).toNat + 1 ≤ 0x1000 := by decide

theorem witness_LoadRegisters :
    (0xFF0#16 : Word).toNat + (0xF#4 : Nibble).toNat + 1 ≤ 0x1000 ∧
      ¬ (0x1000#16 : Word).toNat + (0x0#4 : Nibble).toNat + 1 ≤ 0x1000 := by decide

/-! ## Witnesses: what no instruction does, encoding, invariants -/

theorem witness_NoStepWritesMemoryWithoutP6 :
    (vec 0x6AFF).cfg.extMemOps = false ∧ ∃ t, step (vec 0x6AFF) = .next t := ⟨by decide, _, rfl⟩

theorem witness_NoStepWritesKeysOrParameters : ∃ t, step (vec 0xF155) = .next t := ⟨_, rfl⟩

theorem witness_OnlyCallAndReturnTouchTheStack :
    (∀ nnn, Instr.cls ≠ .call nnn) ∧ Instr.cls ≠ .ret ∧ ∃ t, exec .cls State.reset = .next t :=
  ⟨fun _ h => (nomatch h), by decide, _, rfl⟩

/-- Fx55 without P7, and an instruction that never writes I under P7. -/
theorem witness_IndexIsWrittenOnlyByItsInstructions :
    (State.reset.cfg.loadStoreIncrementsI = false ∧ ∃ t, exec (.stRegs 0x1#4) State.reset = .next t) ∧
    ((∀ x, Instr.cls ≠ .stRegs x) ∧ (∀ x, Instr.cls ≠ .ldRegs x) ∧
      ∃ t, exec .cls (params (fun c => { c with loadStoreIncrementsI := true }) State.reset) = .next t) :=
  ⟨⟨by decide, _, rfl⟩, fun _ h => (nomatch h), fun _ h => (nomatch h), _, rfl⟩

theorem witness_InstructionsWriteOnlyTheirRegisters :
    (∃ t, exec (.addReg 0x0#4 0x1#4) State.reset = .next t) ∧ 0x2#4 ∉ writtenRegs {} (.addReg 0x0#4 0x1#4) :=
  ⟨⟨_, rfl⟩, by decide⟩

theorem witness_DecodeOfEncodeIsTheInstruction :
    (Instr.ldB 0xF#4).wellFormed true = true ∧ (Instr.drw 0xF#4 0xF#4 0xF#4).wellFormed false = true := by decide

theorem witness_EncodeOfDecodeIsTheOpcode : decode true 0xFF65#16 = .instr (.ldRegs 0xF#4) := by decide

/-- The first and last illegal opcodes of classes 0 and F, and a legal one. -/
theorem witness_UnknownOpcodesAreExactlyTheListed :
    illegalOpcode false 0x0000#16 = true ∧ illegalOpcode false 0x0FFF#16 = true ∧ illegalOpcode false 0xF000#16 = true ∧
      illegalOpcode true 0xFFFF#16 = true ∧ illegalOpcode false 0xFF65#16 = true ∧
      illegalOpcode true 0xFF65#16 = false := by decide

/-- Two instructions of one row, an opcode of a fixed row, and one that decodes to an instruction. -/
theorem witness_OpcodeRowsDoNotOverlap :
    (Instr.jp 0x001#12).row.covers 0x1FFF#16 = true ∧ (Instr.jp 0x002#12).row.covers 0x1FFF#16 = true ∧
      Instr.cls.row.covers 0x00E0#16 = true ∧ decode true 0xFF65#16 = .instr (.ldRegs 0xF#4) := by decide

theorem witness_CreatedCoresMeetTheInvariant :
    ∃ s, createCore {} (some [0x60#8, 0x0A#8]) = .ready s := ⟨_, rfl⟩

theorem witness_StepKeepsTheInvariant : (vec 0x6AFF).Inv ∧ ∃ t, step (vec 0x6AFF) = .next t :=
  ⟨⟨by decide, by decide, by decide, by decide⟩, _, rfl⟩

theorem witness_HostOperationsKeepTheInvariant :
    (vec 0x6AFF).Inv ∧ (∃ t, (HostOp.step 0x00#8).run (vec 0x6AFF) = .next t) ∧
      (∃ t, (HostOp.reset (some [0x60#8])).run (vec 0x6AFF) = .next t) :=
  ⟨⟨by decide, by decide, by decide, by decide⟩, ⟨_, rfl⟩, ⟨_, rfl⟩⟩

theorem witness_EveryScheduleMeetsTheInvariant : ∃ s t, Reachable s ∧ step s = .next t ∧ Reachable (tick s) :=
  ⟨_, _, .created {} (some [0x60#8, 0x0A#8]) _ rfl, rfl,
    .operated .tick _ _ (.created {} (some [0x60#8, 0x0A#8]) _ rfl) rfl⟩

end Sys2Proof.Tests
end

section
/-!
PROOF. R111 (40_execution_cycle.md): `setKey` writes one key of the latch, in any status, and nothing else.
-/

namespace Sys2Proof.Machine

@[simp] theorem setKey_keyDown_same (s : State) (k : Nibble) (b : Bool) : (setKey k b s).keyDown k = b := by
  rw [setKey_keyDown, if_pos rfl]

theorem setKey_keyDown_of_ne (s : State) {k j : Nibble} (b : Bool) (h : j ≠ k) :
    (setKey k b s).keyDown j = s.keyDown j := by
  rw [setKey_keyDown, if_neg h]

/-- The frame of `setKey`: it writes the field `key` alone, so any part but the latch reads as before. -/
theorem setKey_sameBut_keys (s : State) (k : Nibble) (b : Bool) : SameBut [.keys] s (setKey k b s) := by
  intro p hp
  cases p with
  | keys => exact absurd (List.mem_singleton_self _) hp
  | regs | stack | mem => exact fun _ => rfl
  | disp => exact fun _ _ => rfl
  | index | pc | sp | dt | st | status | cfg | rndIn | draws => exact rfl

/-- Settles O5: the write of the latch at the key itself and at any other key, and the frame of `setKey`. -/
theorem setKeyWritesOneKey : Obligations.SetKeyWritesOneKey := by
  intro s k b
  exact ⟨setKey_keyDown_same s k b, fun j hj => setKey_keyDown_of_ne s b hj, setKey_sameBut_keys s k b⟩

end Sys2Proof.Machine
end

section
/-!
PROOF. R132–R136 (41_control_flow.md): the jump and the register skips end in one write of pc and the post-step rule
(40_execution_cycle.md R106, R109), so both go through `wrotePc_setPc_stepDecay`.
-/

namespace Sys2Proof.Machine

/-! ## Frames of the shared operations -/

theorem SameBut.refl (parts : List Part) (s : State) : SameBut parts s s := by
  intro p _
  cases p with
  | regs | stack | keys | mem => exact fun _ => rfl
  | disp => exact fun _ _ => rfl
  | index | pc | sp | dt | st | status | cfg | rndIn | draws => exact rfl

/-- Writing pc adds pc to what may differ. -/
theorem SameBut.setPc {parts : List Part} {s u : State} (h : SameBut parts s u) (a : Word) :
    SameBut (parts ++ [.pc]) s (u.setPc a) := by
  intro p hp
  rw [List.mem_append, not_or] at hp
  obtain ⟨hparts, hpc⟩ := hp
  have hu := h p hparts
  cases p with
  | pc => exact absurd (List.mem_singleton_self _) hpc
  | regs | index | stack | sp | disp | keys | dt | st | status | mem | cfg | rndIn | draws => exact hu

/-- The decay at the end of a step adds the two timers to what may differ (40_execution_cycle.md R109). -/
theorem SameBut.stepDecay {parts : List Part} {s u : State} (h : SameBut parts s u) :
    SameBut (parts ++ [.dt, .st]) s u.stepDecay := by
  intro p hp
  rw [List.mem_append, not_or] at hp
  obtain ⟨hparts, htimers⟩ := hp
  have hu := h p hparts
  cases p with
  | dt | st => simp at htimers
  | regs | index | pc | stack | sp | disp | keys | status | mem | cfg | rndIn | draws => simpa [Part.Same] using hu

/-- The timers at the end of a step whose instruction wrote neither of them nor the configuration (R109). -/
theorem timersStepped_stepDecay {s u : State} (hcfg : u.cfg = s.cfg) (hdt : u.dt = s.dt) (hst : u.st = s.st) :
    TimersStepped s u.stepDecay := by
  constructor
  · rw [State.stepDecay_dt, hcfg, hdt]; rfl
  · rw [State.stepDecay_st, hcfg, hst]; rfl

/-! ## A step that writes pc alone -/

theorem wrotePc_setPc_stepDecay (s : State) (a : Word) : WrotePc s (s.setPc a).stepDecay a :=
  ⟨State.stepDecay_pc _, timersStepped_stepDecay rfl rfl rfl, ((SameBut.refl [] s).setPc a).stepDecay⟩

/-- zext_16 of an address is the word of the same number (30_encoding.md R75). -/
theorem address_eq_ofNat_toNat (nnn : Addr) : address nnn = BitVec.ofNat 16 nnn.toNat :=
  (BitVec.ofNat_toNat 16 nnn).symm

theorem exec_jp (nnn : Addr) (s : State) : exec (.jp nnn) s = .next (s.setPc (address nnn)).stepDecay := rfl

/-- Settles O26: the jump writes zext_16(nnn) to pc and nothing else. -/
theorem jumpSetsPc : Obligations.JumpSetsPc := by
  intro s nnn
  refine ⟨_, exec_jp nnn s, ?_⟩
  rw [address_eq_ofNat_toNat]
  exact wrotePc_setPc_stepDecay s _

/-! ## Skips -/

theorem skipIf_true (s : State) : skipIf s true = .next (s.setPc (s.pc + 4#16)).stepDecay := rfl

theorem skipIf_false (s : State) : skipIf s false = .next (s.setPc (s.pc + 2#16)).stepDecay := rfl

/-- A conditional skip on a test `c` of the condition `p`, taken or not (R133). -/
theorem skipIf_skipped (s : State) {c : Bool} {p : Prop} (hc : c = true ↔ p) :
    ∃ t, skipIf s c = .next t ∧ Skipped s t p := by
  cases c with
  | true =>
    have hp : p := hc.mp rfl
    exact ⟨_, skipIf_true s, fun _ => wrotePc_setPc_stepDecay s _, fun hnp => absurd hp hnp⟩
  | false =>
    have hnp : ¬ p := fun hp => Bool.false_ne_true (hc.mpr hp)
    exact ⟨_, skipIf_false s, fun hp => absurd hp hnp, fun _ => wrotePc_setPc_stepDecay s _⟩

theorem exec_seImm (x : Nibble) (nn : Byte) (s : State) : exec (.seImm x nn) s = skipIf s (s.reg x == nn) := rfl

theorem exec_sneImm (x : Nibble) (nn : Byte) (s : State) : exec (.sneImm x nn) s = skipIf s (s.reg x != nn) := rfl

theorem exec_seReg (x y : Nibble) (s : State) : exec (.seReg x y) s = skipIf s (s.reg x == s.reg y) := rfl

theorem exec_sneReg (x y : Nibble) (s : State) : exec (.sneReg x y) s = skipIf s (s.reg x != s.reg y) := rfl

/-- Settles O31: each of the four is a conditional skip whose Boolean test says its comparison. -/
theorem skipsCompareRegisters : Obligations.SkipsCompareRegisters := by
  intro s x y nn
  rw [exec_seImm, exec_sneImm, exec_seReg, exec_sneReg]
  exact ⟨skipIf_skipped s beq_iff_eq, skipIf_skipped s bne_iff_ne, skipIf_skipped s beq_iff_eq,
    skipIf_skipped s bne_iff_ne⟩

end Sys2Proof.Machine
end

section
/-!
PROOF. R151–R156 (42_alu.md): the loads, the add of an immediate and the bitwise operations end in one write of a V
register and Advance (40_execution_cycle.md R106), so all go through `writeReg_wroteReg`.
-/

namespace Sys2Proof.Machine

/-! ## One register write -/

@[simp] theorem State.setReg_reg_same (s : State) (x : Nibble) (b : Byte) : (s.setReg x b).reg x = b := by
  rw [State.setReg_reg, if_pos rfl]

theorem State.setReg_regsSameBut (s : State) (x : Nibble) (b : Byte) : RegsSameBut [x] s (s.setReg x b) := by
  intro r hr
  rw [State.setReg_reg, if_neg (fun hrx => hr (List.mem_singleton.mpr hrx))]

/-- Writing a V register adds the registers to what may differ. -/
theorem SameBut.setReg {parts : List Part} {s u : State} (h : SameBut parts s u) (x : Nibble) (b : Byte) :
    SameBut (parts ++ [.regs]) s (u.setReg x b) := by
  intro p hp
  rw [List.mem_append, not_or] at hp
  obtain ⟨hparts, hregs⟩ := hp
  have hu := h p hparts
  cases p with
  | regs => exact absurd (List.mem_singleton_self _) hregs
  | index | pc | stack | sp | disp | keys | dt | st | status | mem | cfg | rndIn | draws => exact hu

/-! ## Advance -/

/-- A step that ends in Advance after `u`, which has the timers and the configuration of `s` (R106, R109). -/
theorem advanced_setPc_stepDecay {s u : State} (hcfg : u.cfg = s.cfg) (hdt : u.dt = s.dt) (hst : u.st = s.st) :
    Advanced s (u.setPc (s.pc + 2#16)).stepDecay :=
  ⟨State.stepDecay_pc _, timersStepped_stepDecay (u := u.setPc _) hcfg hdt hst⟩

theorem writeReg_eq (s : State) (x : Nibble) (b : Byte) :
    writeReg s x b = .next ((s.setReg x b).setPc (s.pc + 2#16)).stepDecay := rfl

/-- Everything an instruction does that writes one register and Advances. -/
theorem writeReg_wroteReg (s : State) (x : Nibble) (b : Byte) : ∃ t, writeReg s x b = .next t ∧ WroteReg s t x b := by
  refine ⟨_, writeReg_eq s x b, ?_, ?_, advanced_setPc_stepDecay rfl rfl rfl, ?_⟩
  · rw [State.stepDecay_reg, State.setPc_reg, State.setReg_reg_same]
  · intro r hr
    rw [State.stepDecay_reg, State.setPc_reg, State.setReg_regsSameBut s x b r hr]
  · exact (((SameBut.refl [] s).setReg x b).setPc _).stepDecay

/-! ## The instructions -/

theorem exec_ldImm (x : Nibble) (nn : Byte) (s : State) : exec (.ldImm x nn) s = writeReg s x nn := rfl

theorem exec_addImm (x : Nibble) (nn : Byte) (s : State) : exec (.addImm x nn) s = writeReg s x (s.reg x + nn) := rfl

theorem exec_ldReg (x y : Nibble) (s : State) : exec (.ldReg x y) s = writeReg s x (s.reg y) := rfl

theorem exec_orReg (x y : Nibble) (s : State) : exec (.orReg x y) s = writeReg s x (s.reg x ||| s.reg y) := rfl

theorem exec_andReg (x y : Nibble) (s : State) : exec (.andReg x y) s = writeReg s x (s.reg x &&& s.reg y) := rfl

theorem exec_xorReg (x y : Nibble) (s : State) : exec (.xorReg x y) s = writeReg s x (s.reg x ^^^ s.reg y) := rfl

/-- The sum of two bytes is their sum as numbers modulo 256 (R152). -/
theorem byte_add_eq_ofNat_mod (a b : Byte) : a + b = BitVec.ofNat 8 ((a.toNat + b.toNat) % 256) :=
  BitVec.eq_of_toNat_eq (by simp)

/-- Settles O16: both instructions are one register write, and the byte sum of 7xnn is the sum modulo 256. -/
theorem loadAndAddImmediate : Obligations.LoadAndAddImmediate := by
  intro s x nn
  rw [exec_ldImm, exec_addImm, ← byte_add_eq_ofNat_mod]
  exact ⟨writeReg_wroteReg s x nn, writeReg_wroteReg s x _⟩

/-- Settles O17: each of the four is one register write of its value, so VF keeps its value unless x = F. -/
theorem copyAndBitwise : Obligations.CopyAndBitwise := by
  intro s x y
  rw [exec_ldReg, exec_orReg, exec_andReg, exec_xorReg]
  exact ⟨writeReg_wroteReg s x _, writeReg_wroteReg s x _, writeReg_wroteReg s x _, writeReg_wroteReg s x _⟩

end Sys2Proof.Machine
end

section
/-!
PROOF. R180, R183 (43_index_random.md): both loads of I end in one write of I and Advance (40_execution_cycle.md R106),
so both go through `advance_setI_wroteIndex`.
-/

namespace Sys2Proof.Machine

/-- Writing I adds it to what may differ. -/
theorem SameBut.setI {parts : List Part} {s u : State} (h : SameBut parts s u) (a : Word) :
    SameBut (parts ++ [.index]) s (u.setI a) := by
  intro p hp
  rw [List.mem_append, not_or] at hp
  obtain ⟨hparts, hindex⟩ := hp
  have hu := h p hparts
  cases p with
  | index => exact absurd (List.mem_singleton_self _) hindex
  | regs | pc | stack | sp | disp | keys | dt | st | status | mem | cfg | rndIn | draws => exact hu

/-- Everything an instruction does that writes I and Advances. -/
theorem advance_setI_wroteIndex (s : State) (a : Word) :
    ∃ t, finish s (.advance (s.setI a)) = .next t ∧ WroteIndex s t a :=
  ⟨_, rfl, State.stepDecay_i _, advanced_setPc_stepDecay rfl rfl rfl,
    (((SameBut.refl [] s).setI a).setPc _).stepDecay⟩

/-- Five times the low nibble needs no reduction modulo 2^16. -/
theorem glyphAddress_lowNibble (b : Byte) : glyphAddress (lowNibble b) = BitVec.ofNat 16 (5 * (b.toNat % 16)) :=
  BitVec.eq_of_toNat_eq (by simp [glyphAddress, lowNibble])

theorem exec_ldI (nnn : Addr) (s : State) : exec (.ldI nnn) s = finish s (.advance (s.setI (address nnn))) := rfl

theorem exec_ldF (x : Nibble) (s : State) :
    exec (.ldF x) s = finish s (.advance (s.setI (glyphAddress (lowNibble (s.reg x))))) := rfl

/-- Settles O21: both instructions are one write of I, and both addresses fit in 16 bits. -/
theorem indexFromAddressAndGlyph : Obligations.IndexFromAddressAndGlyph := by
  intro s nnn x
  rw [exec_ldI, exec_ldF, address_eq_ofNat_toNat, glyphAddress_lowNibble]
  exact ⟨advance_setI_wroteIndex s _, advance_setI_wroteIndex s _⟩

end Sys2Proof.Machine
end

section
/-!
PROOF. R181 (43_index_random.md): Cxnn is a register write of the masked draw, and every other instruction commutes with
replacing the random source. That commutation also gives the frame: taken at the state's own source, it says that the
outcome keeps it.
-/

namespace Sys2Proof.Machine

/-! ## Replacing the random source -/

/-- `s` with the pending bytes `q` and the draw counter `k` (00_scope.md R7, log entry 2). -/
def State.withDraws (q : List Byte) (k : Nat) (s : State) : State := { s with rndIn := q, draws := k }

/-- `f` on the next state of a result; a fault or a refusal stays. -/
def onNext (f : State → State) : Result → Result
  | .next t => .next (f t)
  | .fault e => .fault e
  | .refused r => .refused r

@[simp] theorem onNext_next (f : State → State) (t : State) : onNext f (.next t) = .next (f t) := rfl

theorem onNext_onNext (f g : State → State) (r : Result) : onNext f (onNext g r) = onNext (f ∘ g) r := by
  cases r with
  | next t | fault e | refused r => rfl

theorem State.withDraws_self (s : State) : s.withDraws s.rndIn s.draws = s := rfl

theorem State.withDraws_stepDecay (q : List Byte) (k : Nat) (s : State) :
    s.stepDecay.withDraws q k = (s.withDraws q k).stepDecay := by
  unfold State.stepDecay
  exact apply_ite (State.withDraws q k) ..

theorem State.withDraws_setRegsFrom (q : List Byte) (k : Nat) (s : State) (r : Nat) (bytes : List Byte) :
    (s.setRegsFrom r bytes).withDraws q k = (s.withDraws q k).setRegsFrom r bytes := by
  induction bytes generalizing s r with
  | nil => rfl
  | cons b bs ih => exact ih (s.setReg (BitVec.ofNat 4 r) b) (r + 1)

/-- Replacing the source, back to the pending bytes of `s`, adds the counter to what may differ. -/
theorem SameBut.withDraws {parts : List Part} {s u : State} (h : SameBut parts s u) (k : Nat) :
    SameBut (parts ++ [.draws]) s (u.withDraws s.rndIn k) := by
  intro p hp
  rw [List.mem_append, not_or] at hp
  obtain ⟨hparts, hdraws⟩ := hp
  have hu := h p hparts
  cases p with
  | draws => exact absurd (List.mem_singleton_self _) hdraws
  | rndIn => exact rfl
  | regs | index | pc | stack | sp | disp | keys | dt | st | status | mem | cfg => exact hu

/-! ## The end of a step -/

/-- The effect with the source of its state replaced. -/
def Effect.withDraws (q : List Byte) (k : Nat) : Effect → Effect
  | .advance t => .advance (t.withDraws q k)
  | .set t => .set (t.withDraws q k)
  | .block => .block
  | .error e => .error e
  | .refuse r => .refuse r

theorem onNext_withDraws_finish (q : List Byte) (k : Nat) (s : State) (e : Effect) :
    onNext (State.withDraws q k) (finish s e) = finish (s.withDraws q k) (e.withDraws q k) := by
  cases e with
  | advance t => exact congrArg Host.Outcome.next (State.withDraws_stepDecay q k _)
  | set t => exact congrArg Host.Outcome.next (State.withDraws_stepDecay q k t)
  | block | error e | refuse r => rfl

theorem onNext_withDraws_skipIf (q : List Byte) (k : Nat) (s : State) (c : Bool) :
    onNext (State.withDraws q k) (skipIf s c) = skipIf (s.withDraws q k) c := by
  cases c with
  | true | false => exact onNext_withDraws_finish q k s _

theorem onNext_withDraws_writeReg (q : List Byte) (k : Nat) (s : State) (x : Nibble) (b : Byte) :
    onNext (State.withDraws q k) (writeReg s x b) = writeReg (s.withDraws q k) x b :=
  onNext_withDraws_finish q k s _

theorem onNext_withDraws_writeRegFlag (q : List Byte) (k : Nat) (s : State) (x : Nibble) (r f : Byte) :
    onNext (State.withDraws q k) (writeRegFlag s x r f) = writeRegFlag (s.withDraws q k) x r f :=
  onNext_withDraws_finish q k s _

/-! ## The instructions whose meaning has a case split -/

theorem onNext_withDraws_execRet (q : List Byte) (k : Nat) (s : State) :
    onNext (State.withDraws q k) (execRet s) = execRet (s.withDraws q k) := by
  by_cases h : s.sp.val = 0
  · have h' : (s.withDraws q k).sp.val = 0 := h
    simp only [execRet, State.pop_none _ h, State.pop_none _ h']
    exact onNext_withDraws_finish q k s _
  · have h' : (s.withDraws q k).sp.val ≠ 0 := h
    simp only [execRet, State.pop_some _ h, State.pop_some _ h']
    exact onNext_withDraws_finish q k s _

theorem onNext_withDraws_execCall (q : List Byte) (k : Nat) (nnn : Addr) (s : State) :
    onNext (State.withDraws q k) (execCall nnn s) = execCall nnn (s.withDraws q k) := by
  by_cases h : s.sp.val < 16
  · have h' : (s.withDraws q k).sp.val < 16 := h
    simp only [execCall, State.push_some _ _ h, State.push_some _ _ h']
    exact onNext_withDraws_finish q k s _
  · have h' : ¬ (s.withDraws q k).sp.val < 16 := h
    simp only [execCall, State.push_none _ _ h, State.push_none _ _ h']
    exact onNext_withDraws_finish q k s _

theorem onNext_withDraws_execDrw (q : List Byte) (k : Nat) (x y n : Nibble) (s : State) :
    onNext (State.withDraws q k) (execDrw x y n s) = execDrw x y n (s.withDraws q k) := by
  have hspan : (s.withDraws q k).readSpan (s.withDraws q k).i.toNat n.toNat = s.readSpan s.i.toNat n.toNat := rfl
  unfold execDrw
  rw [hspan]
  cases s.readSpan s.i.toNat n.toNat with
  | error a | ok sprite => exact onNext_withDraws_finish q k s _

theorem onNext_withDraws_execLdK (q : List Byte) (k : Nat) (x : Nibble) (s : State) :
    onNext (State.withDraws q k) (execLdK x s) = execLdK x (s.withDraws q k) := by
  have hcfg : (s.withDraws q k).cfg = s.cfg := rfl
  have hkey : (s.withDraws q k).lowestKey = s.lowestKey := rfl
  unfold execLdK
  rw [hcfg, hkey]
  by_cases hp5 : s.cfg.fx0aOnRelease = true
  · rw [if_pos hp5, if_pos hp5]
    exact onNext_withDraws_finish q k s _
  · rw [if_neg hp5, if_neg hp5]
    cases s.lowestKey with
    | some j | none => exact onNext_withDraws_finish q k s _

theorem onNext_withDraws_execAddI (q : List Byte) (k : Nat) (x : Nibble) (s : State) :
    onNext (State.withDraws q k) (execAddI x s) = execAddI x (s.withDraws q k) := by
  have hcfg : (s.withDraws q k).cfg = s.cfg := rfl
  unfold execAddI
  rw [hcfg]
  cases s.cfg.fx1eSetsVf with
  | true | false => exact onNext_withDraws_finish q k s _

theorem onNext_withDraws_execLdRegs (q : List Byte) (k : Nat) (x : Nibble) (s : State) :
    onNext (State.withDraws q k) (execLdRegs x s) = execLdRegs x (s.withDraws q k) := by
  have hspan : (s.withDraws q k).readSpan (s.withDraws q k).i.toNat (x.toNat + 1) =
      s.readSpan s.i.toNat (x.toNat + 1) := rfl
  unfold execLdRegs
  rw [hspan]
  cases s.readSpan s.i.toNat (x.toNat + 1) with
  | error a => exact onNext_withDraws_finish q k s _
  | ok bytes =>
    dsimp only
    rw [← State.withDraws_setRegsFrom]
    exact onNext_withDraws_finish q k s _

theorem State.writeSpan_withDraws (q : List Byte) (k : Nat) (s : State) (base : Nat) (bytes : List Byte) :
    (s.withDraws q k).writeSpan base bytes = (s.writeSpan base bytes).map (State.withDraws q k) := by
  unfold State.writeSpan
  cases firstOutside base bytes.length with
  | some a | none => rfl

theorem onNext_withDraws_execLdB (q : List Byte) (k : Nat) (x : Nibble) (s : State) :
    onNext (State.withDraws q k) (execLdB x s) = execLdB x (s.withDraws q k) := by
  have hspan : (s.withDraws q k).writeSpan (s.withDraws q k).i.toNat (decimalDigits ((s.withDraws q k).reg x)) =
      (s.writeSpan s.i.toNat (decimalDigits (s.reg x))).map (State.withDraws q k) := State.writeSpan_withDraws ..
  unfold execLdB
  rw [hspan]
  cases s.writeSpan s.i.toNat (decimalDigits (s.reg x)) with
  | error a | ok t => exact onNext_withDraws_finish q k s _

theorem onNext_withDraws_execStRegs (q : List Byte) (k : Nat) (x : Nibble) (s : State) :
    onNext (State.withDraws q k) (execStRegs x s) = execStRegs x (s.withDraws q k) := by
  have hspan : (s.withDraws q k).writeSpan (s.withDraws q k).i.toNat ((s.withDraws q k).regsUpTo x) =
      (s.writeSpan s.i.toNat (s.regsUpTo x)).map (State.withDraws q k) := State.writeSpan_withDraws ..
  unfold execStRegs
  rw [hspan]
  cases s.writeSpan s.i.toNat (s.regsUpTo x) with
  | error a | ok t => exact onNext_withDraws_finish q k s _

/-! ## Every instruction but Cxnn -/

/-- No instruction but Cxnn reads or writes the random source (R181). -/
theorem onNext_withDraws_exec {i : Instr} (hi : ∀ x nn, i ≠ .rnd x nn) (q : List Byte) (k : Nat) (s : State) :
    onNext (State.withDraws q k) (exec i s) = exec i (s.withDraws q k) := by
  cases i with
  | rnd x nn => exact absurd rfl (hi x nn)
  | ldImm x | addImm x | ldReg x | orReg x | andReg x | xorReg x => exact onNext_withDraws_writeReg q k s x _
  | addReg x | sub x | shr x | subn x | shl x => exact onNext_withDraws_writeRegFlag q k s x _ _
  | cls | jp | jpV0 | ldI | ldF | ldFromDt | ldDt | ldSt =>
    dsimp only [exec]
    exact onNext_withDraws_finish q k s _
  | seImm | sneImm | seReg | sneReg | skp | sknp => exact onNext_withDraws_skipIf q k s _
  | ret => exact onNext_withDraws_execRet q k s
  | call nnn => exact onNext_withDraws_execCall q k nnn s
  | drw x y n => exact onNext_withDraws_execDrw q k x y n s
  | ldK x => exact onNext_withDraws_execLdK q k x s
  | addI x => exact onNext_withDraws_execAddI q k x s
  | ldB x => exact onNext_withDraws_execLdB q k x s
  | stRegs x => exact onNext_withDraws_execStRegs q k x s
  | ldRegs x => exact onNext_withDraws_execLdRegs q k x s

/-! ## A step with the host's byte -/

theorem step_of_fetchesInstr {s : State} {i : Instr} (h : FetchesInstr s i) : step s = exec i s := by
  obtain ⟨hstatus, hpc, hdecode⟩ := h
  simp only [step, hstatus, stepRunning, s.canFetch_iff.mpr hpc, if_true, State.opcodeAtPc, opcodeOfBytes, hdecode]

/-- A step with the host's byte runs the fetched instruction on that byte alone, and puts the pending bytes back. -/
theorem stepWithDraw_of_fetchesInstr {s : State} {i : Instr} (h : FetchesInstr s i) (rnd : Byte) :
    stepWithDraw rnd s = onNext (fun t => { t with rndIn := s.rndIn }) (exec i (s.withDraws [rnd] s.draws)) := by
  have hstep : step (s.withDraws [rnd] s.draws) = exec i (s.withDraws [rnd] s.draws) :=
    step_of_fetchesInstr (s := s.withDraws [rnd] s.draws) h
  rw [← hstep]
  rfl

theorem exec_rnd (x : Nibble) (nn : Byte) (s : State) :
    exec (.rnd x nn) s = finish s (.advance (s.setReg x (s.draw &&& nn)).dropDraw) := rfl

/-- With the host's byte `rnd`, Cxnn is a register write of `rnd & nn`, and one draw is counted. -/
theorem stepWithDraw_rnd {s : State} {x : Nibble} {nn : Byte} (h : FetchesInstr s (.rnd x nn)) (rnd : Byte) :
    stepWithDraw rnd s = onNext (State.withDraws s.rndIn (s.draws + 1)) (writeReg s x (rnd &&& nn)) := by
  have hexec : exec (.rnd x nn) (s.withDraws [rnd] s.draws) =
      onNext (State.withDraws [] (s.draws + 1)) (writeReg s x (rnd &&& nn)) := by
    rw [exec_rnd, onNext_withDraws_writeReg]
    rfl
  rw [stepWithDraw_of_fetchesInstr h, hexec, onNext_onNext]
  rfl

/-- A step of any other instruction ignores the host's byte. -/
theorem stepWithDraw_of_ne_rnd {s : State} {i : Instr} (h : FetchesInstr s i) (hi : ∀ x nn, i ≠ .rnd x nn)
    (rnd : Byte) : stepWithDraw rnd s = step s := by
  calc stepWithDraw rnd s
      = onNext (fun t => { t with rndIn := s.rndIn }) (exec i (s.withDraws [rnd] s.draws)) :=
        stepWithDraw_of_fetchesInstr h rnd
    _ = onNext (State.withDraws s.rndIn s.draws) (exec i s) := by
        rw [← onNext_withDraws_exec hi, onNext_onNext]; rfl
    _ = step s := by rw [onNext_withDraws_exec hi, State.withDraws_self, step_of_fetchesInstr h]

/-- Settles O23: Cxnn by its one register write, any other instruction by commuting with the random source. -/
theorem randomByteIsTheHostsDrawMasked : Obligations.RandomByteIsTheHostsDrawMasked := by
  intro s i rnd hfetch
  refine ⟨?_, fun hi => stepWithDraw_of_ne_rnd hfetch hi rnd⟩
  rintro x nn rfl
  obtain ⟨t, hwrite, hreg, hregs, hadvanced, hframe⟩ := writeReg_wroteReg s x (rnd &&& nn)
  refine ⟨t.withDraws s.rndIn (s.draws + 1), ?_, hreg, hregs, hadvanced, hframe.withDraws _⟩
  rw [stepWithDraw_rnd hfetch, hwrite, onNext_next]

end Sys2Proof.Machine
end

section
/-!
PROOF. R190 (44_display.md): 00E0 is one write of the display buffer, by the clear one, and Advance
(40_execution_cycle.md R106).
-/

namespace Sys2Proof.Machine

/-- Writing the display buffer adds the display to what may differ. -/
theorem SameBut.setDisp {parts : List Part} {s u : State} (h : SameBut parts s u) (d : Display) :
    SameBut (parts ++ [.disp]) s (u.setDisp d) := by
  intro p hp
  rw [List.mem_append, not_or] at hp
  obtain ⟨hparts, hdisp⟩ := hp
  have hu := h p hparts
  cases p with
  | disp => exact absurd (List.mem_singleton_self _) hdisp
  | regs | index | pc | stack | sp | keys | dt | st | status | mem | cfg | rndIn | draws => exact hu

theorem exec_cls (s : State) :
    exec .cls s = .next ((s.setDisp Display.clear).setPc (s.pc + 2#16)).stepDecay := rfl

/-- Settles O32: the one write is of the clear display, on which every pixel is false. -/
theorem clearScreen : Obligations.ClearScreen := by
  intro s
  refine ⟨_, exec_cls s, ?_, advanced_setPc_stepDecay rfl rfl rfl,
    (((SameBut.refl [] s).setDisp Display.clear).setPc _).stepDecay⟩
  intro px py
  rw [State.stepDecay_disp, State.setPc_disp, State.setDisp_disp, Display.pixel_clear]

end Sys2Proof.Machine
end

section
/-!
PROOF. Encoding and decoding (30_encoding.md R72–R80): an opcode is the format of its fields, so `decode` and `encode`
undo each other, and both follow the rows of the opcode table and the list of illegal opcodes.
-/

namespace Sys2Proof

open Sys2Proof.Machine

/-! ## Decoding an encoded instruction (R72–R79) -/

/-- Settles O51: each format gives back its fields, so `decode` finds the class, then the fixed field, of the row. -/
theorem decodeOfEncodeIsTheInstruction : Obligations.DecodeOfEncodeIsTheInstruction := by
  intro p6 i hwf
  cases i with
  | cls | ret => rfl
  | ldB x | stRegs x | ldRegs x =>
    obtain rfl : p6 = true := hwf
    simp [encode, decode, decodeMisc]
  | ldReg | orReg | andReg | xorReg | addReg | sub | shr | subn | shl => simp [encode, decode, decodeAlu]
  | skp | sknp => simp [encode, decode, decodeKey]
  | ldFromDt | ldK | ldDt | ldSt | addI | ldF => simp [encode, decode, decodeMisc]
  | call | jp | ldI | jpV0 | seImm | sneImm | ldImm | addImm | rnd | seReg | sneReg | drw => simp [encode, decode]

/-! ## Encoding a decoded instruction (R73, R77) -/

theorem formatA_of_opClass {op : Word} {c : Nibble} (hc : opClass op = c) : formatA c (fieldNNN op) = op := by
  subst hc
  apply BitVec.eq_of_toNat_eq
  rw [formatA_toNat, opClass_toNat, fieldNNN_toNat]
  omega

theorem formatXNN_of_opClass {op : Word} {c : Nibble} (hc : opClass op = c) :
    formatXNN c (fieldX op) (fieldNN op) = op := by
  subst hc
  apply BitVec.eq_of_toNat_eq
  rw [formatXNN_toNat, opClass_toNat, fieldX_toNat, fieldNN_toNat]
  omega

theorem formatXYN_of_opClass {op : Word} {c : Nibble} (hc : opClass op = c) :
    formatXYN c (fieldX op) (fieldY op) (fieldN op) = op := by
  subst hc
  apply BitVec.eq_of_toNat_eq
  rw [formatXYN_toNat, opClass_toNat, fieldX_toNat, fieldY_toNat, fieldN_toNat]
  omega

theorem formatXY_of_fieldN {op : Word} {c f : Nibble} (hc : opClass op = c) (hf : fieldN op = f) :
    formatXY c (fieldX op) (fieldY op) f = op := by
  subst hf
  exact formatXYN_of_opClass hc

theorem formatX_of_fieldNN {op : Word} {c : Nibble} {f : Byte} (hc : opClass op = c) (hf : fieldNN op = f) :
    formatX c (fieldX op) f = op := by
  subst hf
  exact formatXNN_of_opClass hc

theorem encode_of_decodeAlu {p6 : Bool} {op : Word} {i : Instr} (hc : opClass op = 0x8#4)
    (h : decodeAlu op (fieldX op) (fieldY op) = .instr i) : encode i = op ∧ i.wellFormed p6 = true := by
  unfold decodeAlu at h
  split at h <;> cases h <;> exact ⟨formatXY_of_fieldN hc ‹_›, rfl⟩

theorem encode_of_decodeKey {p6 : Bool} {op : Word} {i : Instr} (hc : opClass op = 0xE#4)
    (h : decodeKey op (fieldX op) = .instr i) : encode i = op ∧ i.wellFormed p6 = true := by
  unfold decodeKey at h
  split at h <;> cases h <;> exact ⟨formatX_of_fieldNN hc ‹_›, rfl⟩

/-- In class F the optional group decodes only with P6 (R79). -/
theorem encode_of_decodeMisc {p6 : Bool} {op : Word} {i : Instr} (hc : opClass op = 0xF#4)
    (h : decodeMisc p6 op (fieldX op) = .instr i) : encode i = op ∧ i.wellFormed p6 = true := by
  cases p6 with
  | true | false =>
    unfold decodeMisc at h
    split at h <;> cases h <;> exact ⟨formatX_of_fieldNN hc ‹_›, rfl⟩

/-- The sixteen values of a class or of a four-bit field (R71, R72). -/
theorem nibble_cases (c : Nibble) :
    c = 0x0#4 ∨ c = 0x1#4 ∨ c = 0x2#4 ∨ c = 0x3#4 ∨ c = 0x4#4 ∨ c = 0x5#4 ∨ c = 0x6#4 ∨ c = 0x7#4 ∨
      c = 0x8#4 ∨ c = 0x9#4 ∨ c = 0xA#4 ∨ c = 0xB#4 ∨ c = 0xC#4 ∨ c = 0xD#4 ∨ c = 0xE#4 ∨ c = 0xF#4 := by
  revert c
  decide

theorem encode_of_decode {p6 : Bool} {op : Word} {i : Instr} (h : decode p6 op = .instr i) :
    encode i = op ∧ i.wellFormed p6 = true := by
  rcases nibble_cases (opClass op) with
    hc | hc | hc | hc | hc | hc | hc | hc | hc | hc | hc | hc | hc | hc | hc | hc <;>
    simp only [decode, hc] at h
  · split at h
    · cases h; exact ⟨Eq.symm ‹_›, rfl⟩
    · split at h <;> cases h
      exact ⟨Eq.symm ‹_›, rfl⟩
  · cases h; exact ⟨formatA_of_opClass hc, rfl⟩
  · cases h; exact ⟨formatA_of_opClass hc, rfl⟩
  · cases h; exact ⟨formatXNN_of_opClass hc, rfl⟩
  · cases h; exact ⟨formatXNN_of_opClass hc, rfl⟩
  · split at h <;> cases h
    exact ⟨formatXY_of_fieldN hc ‹_›, rfl⟩
  · cases h; exact ⟨formatXNN_of_opClass hc, rfl⟩
  · cases h; exact ⟨formatXNN_of_opClass hc, rfl⟩
  · exact encode_of_decodeAlu hc h
  · split at h <;> cases h
    exact ⟨formatXY_of_fieldN hc ‹_›, rfl⟩
  · cases h; exact ⟨formatA_of_opClass hc, rfl⟩
  · cases h; exact ⟨formatA_of_opClass hc, rfl⟩
  · cases h; exact ⟨formatXNN_of_opClass hc, rfl⟩
  · cases h; exact ⟨formatXYN_of_opClass hc, rfl⟩
  · exact encode_of_decodeKey hc h
  · exact encode_of_decodeMisc hc h

/-- Settles O52: in every class the opcode is the format of its fields. -/
theorem encodeOfDecodeIsTheOpcode : Obligations.EncodeOfDecodeIsTheOpcode :=
  fun _ _ _ h => encode_of_decode h

/-! ## The illegal opcodes (R80) -/

theorem decodeAlu_eq_unknown_iff (op : Word) (x y : Nibble) :
    decodeAlu op x y = .unknown op ↔
      [0x8, 0x9, 0xA, 0xB, 0xC, 0xD, 0xF].contains (fieldN op).toNat = true := by
  unfold decodeAlu
  rcases nibble_cases (fieldN op) with
    hn | hn | hn | hn | hn | hn | hn | hn | hn | hn | hn | hn | hn | hn | hn | hn <;> simp [hn]

theorem contains_keyByte (b : Byte) : [0x9E, 0xA1].contains b.toNat = (b == 0x9E#8 || b == 0xA1#8) := by
  revert b
  decide

theorem decodeKey_eq_unknown_iff (op : Word) (x : Nibble) :
    decodeKey op x = .unknown op ↔ (!([0x9E, 0xA1].contains (fieldNN op).toNat)) = true := by
  rw [contains_keyByte]
  unfold decodeKey
  split <;> simp_all

theorem contains_miscByte (b : Byte) :
    [0x07, 0x0A, 0x15, 0x18, 0x1E, 0x29].contains b.toNat =
      (b == 0x07#8 || b == 0x0A#8 || b == 0x15#8 || b == 0x18#8 || b == 0x1E#8 || b == 0x29#8) := by
  revert b
  decide

theorem contains_extMemByte (b : Byte) :
    [0x33, 0x55, 0x65].contains b.toNat = (b == 0x33#8 || b == 0x55#8 || b == 0x65#8) := by
  revert b
  decide

theorem decodeMisc_eq_unknown_iff (p6 : Bool) (op : Word) (x : Nibble) :
    decodeMisc p6 op x = .unknown op ↔
      (!([0x07, 0x0A, 0x15, 0x18, 0x1E, 0x29].contains (fieldNN op).toNat) &&
        !(p6 && [0x33, 0x55, 0x65].contains (fieldNN op).toNat)) = true := by
  rw [contains_miscByte, contains_extMemByte]
  cases p6 with
  | true | false =>
    unfold decodeMisc
    split <;> simp_all

theorem decode_eq_unknown_iff (p6 : Bool) (op : Word) :
    decode p6 op = .unknown op ↔ illegalOpcode p6 op = true := by
  have hclass : op.toNat / 4096 = (opClass op).toNat := by rw [opClass_toNat]; omega
  have hn : op.toNat % 16 = (fieldN op).toNat := (fieldN_toNat op).symm
  have hnn : op.toNat % 256 = (fieldNN op).toNat := (fieldNN_toNat op).symm
  have hn0 : (fieldN op).toNat = 0 ↔ fieldN op = 0x0#4 := BitVec.toNat_inj (y := 0x0#4)
  rcases nibble_cases (opClass op) with
    hc | hc | hc | hc | hc | hc | hc | hc | hc | hc | hc | hc | hc | hc | hc | hc <;>
    simp only [decode, illegalOpcode, hclass, hn, hnn, hc]
  case inl =>
    have hcls : op.toNat = 0x00E0 ↔ op = 0x00E0#16 := BitVec.toNat_inj (y := 0x00E0#16)
    have hret : op.toNat = 0x00EE ↔ op = 0x00EE#16 := BitVec.toNat_inj (y := 0x00EE#16)
    split
    · simp [*]
    · split <;> simp [*]
  all_goals simp [decodeAlu_eq_unknown_iff, decodeKey_eq_unknown_iff, decodeMisc_eq_unknown_iff, hn0]

/-- Settles O53: each class by its sub-decoder. -/
theorem unknownOpcodesAreExactlyTheListed : Obligations.UnknownOpcodesAreExactlyTheListed :=
  decode_eq_unknown_iff

/-! ## The rows of the opcode table (R76) -/

theorem row_covers_encode (i : Instr) : i.row.covers (encode i) = true := by
  cases i with
  | cls => exact Laws.EncodeInRow.cls
  | ret => exact Laws.EncodeInRow.ret
  | call | jp | ldI | jpV0 => exact Laws.EncodeInRow.covers_formatA ..
  | seImm | sneImm | ldImm | addImm | rnd => exact Laws.EncodeInRow.covers_formatXNN ..
  | drw => exact Laws.EncodeInRow.covers_formatXYN ..
  | seReg | sneReg | ldReg | orReg | andReg | xorReg | addReg | sub | shr | subn | shl =>
    exact Laws.EncodeInRow.covers_formatXY ..
  | skp | sknp | ldFromDt | ldK | ldDt | ldSt | addI | ldF | ldB | stRegs | ldRegs =>
    exact Laws.EncodeInRow.covers_formatX ..

theorem row_covers_of_decode {p6 : Bool} {op : Word} {i : Instr} (h : decode p6 op = .instr i) :
    i.row.covers op = true := by
  obtain ⟨hencode, -⟩ := encode_of_decode h
  rw [← hencode]
  exact row_covers_encode i

theorem covers_iff (p m op : Word) : OpcodeRow.covers ⟨p, m⟩ op = true ↔ op &&& m = p := beq_iff_eq

theorem opClass_of_covers {p op : Word} (h : OpcodeRow.covers ⟨p, 0xF000#16⟩ op = true) : opClass op = opClass p := by
  rw [covers_iff, and_classMask] at h
  rw [← h, opClass_formatA]

theorem fields_of_covers_nibbleMask {p op : Word} (h : OpcodeRow.covers ⟨p, 0xF00F#16⟩ op = true) :
    opClass op = opClass p ∧ fieldN op = fieldN p := by
  rw [covers_iff, and_nibbleMask] at h
  rw [← h, opClass_formatXY, fieldN_formatXY]
  exact ⟨rfl, rfl⟩

theorem fields_of_covers_byteMask {p op : Word} (h : OpcodeRow.covers ⟨p, 0xF0FF#16⟩ op = true) :
    opClass op = opClass p ∧ fieldNN op = fieldNN p := by
  rw [covers_iff, and_byteMask] at h
  rw [← h, opClass_formatXNN, fieldNN_formatXNN]
  exact ⟨rfl, rfl⟩

theorem eq_of_covers_fullMask {p op : Word} (h : OpcodeRow.covers ⟨p, 0xFFFF#16⟩ op = true) : op = p := by
  rw [covers_iff] at h
  rw [← h]
  exact BitVec.and_allOnes.symm

/-- `decode` reads no more of an opcode than the mask of its row keeps, so it goes where the pattern goes. -/
theorem decode_of_row_covers {i : Instr} {op : Word} (h : i.row.covers op = true) :
    ∃ j, decode true op = .instr j ∧ j.ctorIdx = i.ctorIdx := by
  cases i with
  | cls | ret =>
    rw [eq_of_covers_fullMask h]
    exact ⟨_, rfl, rfl⟩
  | call | jp | ldI | jpV0 | seImm | sneImm | ldImm | addImm | rnd | drw =>
    have hc := opClass_of_covers h
    simp only [decode, hc]
    exact ⟨_, rfl, rfl⟩
  | seReg | sneReg | ldReg | orReg | andReg | xorReg | addReg | sub | shr | subn | shl =>
    obtain ⟨hc, hn⟩ := fields_of_covers_nibbleMask h
    simp only [decode, decodeAlu, hc, hn]
    exact ⟨_, rfl, rfl⟩
  | skp | sknp =>
    obtain ⟨hc, hnn⟩ := fields_of_covers_byteMask h
    simp only [decode, decodeKey, hc, hnn]
    exact ⟨_, rfl, rfl⟩
  | ldFromDt | ldK | ldDt | ldSt | addI | ldF | ldB | stRegs | ldRegs =>
    obtain ⟨hc, hnn⟩ := fields_of_covers_byteMask h
    simp only [decode, decodeMisc, hc, hnn]
    exact ⟨_, rfl, rfl⟩

/-- Settles O54: an opcode of a row decodes to an instruction of that row, and it decodes to one instruction only. -/
theorem opcodeRowsDoNotOverlap : Obligations.OpcodeRowsDoNotOverlap := by
  refine ⟨fun i j op hi hj => ?_, fun _ _ h => row_covers_of_decode h, fun _ _ h => decode_of_row_covers h⟩
  obtain ⟨k, hk, hki⟩ := decode_of_row_covers hi
  obtain ⟨l, hl, hlj⟩ := decode_of_row_covers hj
  obtain rfl : k = l := Decoded.instr.inj (hk.symm.trans hl)
  exact hki.symm.trans hlj

/-- Settles O55: nine closed words. -/
theorem vectorWordsDecode : Obligations.VectorWordsDecode := by
  unfold Obligations.VectorWordsDecode
  decide

end Sys2Proof
end

section
/-!
PROOF. Execution and the post-step rule apart (40_execution_cycle.md R101, R105): `effect` is what an instruction does
before the step's end, `exec` is its `finish`. What an instruction can write is said once, by the table `effectParts`,
and goes over from `effect` to `exec` and `step`.
-/

namespace Sys2Proof.Machine

/-! ## The effect of an instruction -/

/-- The record of an error the instruction `i` raises (60_exceptions.md R231). -/
def State.errorRecord (s : State) (code : ErrorCode) (i : Instr) (addr : Option Nat) : ErrorRecord :=
  { code := code, pc := s.pc, opcode := some (encode i), addr := addr.map (BitVec.ofNat 16) }

/-- The `n` bytes from I on lie in memory (20_memory.md R54). -/
abbrev State.SpanInside (s : State) (n : Nat) : Prop := n = 0 ∨ s.i.toNat + n ≤ 0x1000

/-- The first address from I on that lies outside memory. -/
def State.firstOutsideFromI (s : State) : Nat := if 0xFFF < s.i.toNat then s.i.toNat else 0x1000

/-- The `n` bytes from I on. -/
def State.bytesFromI (s : State) (n : Nat) : List Byte := (List.range n).map fun k => s.mem.peek (s.i.toNat + k)

/-- The effect of the instruction `i` that transfers `n` bytes from I on: every address is checked before `u` is
reached (20_memory.md R54). -/
def spanEffect (s : State) (i : Instr) (n : Nat) (u : State) : Effect :=
  if s.SpanInside n then .advance u else .error (s.errorRecord .addressOutOfBounds i (some s.firstOutsideFromI))

/-- The blit of Dxyn (44_display.md R191). -/
def State.blit (s : State) (x y n : Nibble) : Blit :=
  Blit.rows ⟨s.disp, false⟩ (s.spriteColumn x) (s.spriteRow y) (s.bytesFromI n.toNat)

/-- The effect of a skip on the condition `c` (41_control_flow.md R133). -/
def skipEffect (s : State) (c : Bool) : Effect := if c then .set (s.setPc s.skipTarget) else .advance s

/-- `execute` of R101 by itself: how each instruction ends, before the post-step rule. -/
def effect (s : State) : Instr → Effect
  | .cls => .advance (s.setDisp Display.clear)
  | .ret =>
    if h : s.sp.val = 0 then .error (s.errorRecord .stackUnderflow .ret none)
    else .set ((s.setStack s.stack ⟨s.sp.val - 1, by omega⟩).setPc (s.slot ⟨s.sp.val - 1, by omega⟩))
  | .call nnn =>
    if h : s.sp.val < 16 then
      .set ((s.setStack (s.stack.set s.sp.val (s.pc + 2#16) h) ⟨s.sp.val + 1, by omega⟩).setPc (address nnn))
    else .error (s.errorRecord .stackOverflow (.call nnn) none)
  | .jp nnn => .set (s.setPc (address nnn))
  | .jpV0 nnn => .set (s.setPc (s.jumpV0Target nnn))
  | .seImm x nn => skipEffect s (s.reg x == nn)
  | .sneImm x nn => skipEffect s (s.reg x != nn)
  | .seReg x y => skipEffect s (s.reg x == s.reg y)
  | .sneReg x y => skipEffect s (s.reg x != s.reg y)
  | .skp x => skipEffect s (s.keyDown (lowNibble (s.reg x)))
  | .sknp x => skipEffect s (!s.keyDown (lowNibble (s.reg x)))
  | .ldImm x nn => .advance (s.setReg x nn)
  | .addImm x nn => .advance (s.setReg x (s.reg x + nn))
  | .ldReg x y => .advance (s.setReg x (s.reg y))
  | .orReg x y => .advance (s.setReg x (s.reg x ||| s.reg y))
  | .andReg x y => .advance (s.setReg x (s.reg x &&& s.reg y))
  | .xorReg x y => .advance (s.setReg x (s.reg x ^^^ s.reg y))
  | .addReg x y => .advance (s.setRegFlag x (s.reg x + s.reg y) (carryFlag (s.reg x) (s.reg y)))
  | .sub x y => .advance (s.setRegFlag x (s.reg x - s.reg y) (noBorrowFlag (s.reg x) (s.reg y)))
  | .subn x y => .advance (s.setRegFlag x (s.reg y - s.reg x) (noBorrowFlag (s.reg y) (s.reg x)))
  | .shr x y => .advance (s.setRegFlag x (s.shiftSource x y >>> 1) (shiftedOutRight (s.shiftSource x y)))
  | .shl x y => .advance (s.setRegFlag x (s.shiftSource x y <<< 1) (shiftedOutLeft (s.shiftSource x y)))
  | .ldI nnn => .advance (s.setI (address nnn))
  | .ldF x => .advance (s.setI (glyphAddress (lowNibble (s.reg x))))
  | .addI x =>
    if s.cfg.fx1eSetsVf then
      .advance ((s.setI (s.i + wordOfByte (s.reg x))).setReg vF (indexOverflowFlag s.i (s.reg x)))
    else .advance (s.setI (s.i + wordOfByte (s.reg x)))
  | .rnd x nn => .advance (s.setReg x (s.draw &&& nn)).dropDraw
  | .drw x y n =>
    spanEffect s (.drw x y n) n.toNat
      ((s.setDisp (s.blit x y n).disp).setReg vF (flag (s.blit x y n).collision))
  | .ldFromDt x => .advance (s.setReg x s.dt)
  | .ldDt x => .advance (s.setDt (s.reg x))
  | .ldSt x => .advance (s.setSt (s.reg x))
  | .ldK x =>
    if s.cfg.fx0aOnRelease then .refuse .fx0aOnRelease
    else
      match s.lowestKey with
      | some k => .advance (s.setReg x (k.setWidth 8))
      | none => .block
  | .ldB x => spanEffect s (.ldB x) 3 (s.setMem (s.mem.pokeSpan s.i.toNat (decimalDigits (s.reg x))))
  | .stRegs x =>
    spanEffect s (.stRegs x) (x.toNat + 1)
      ((s.setMem (s.mem.pokeSpan s.i.toNat (s.regsUpTo x))).setI (s.indexAfterTransfer x))
  | .ldRegs x =>
    spanEffect s (.ldRegs x) (x.toNat + 1)
      ((s.setRegs (s.setRegsFrom 0 (s.bytesFromI (x.toNat + 1))).v).setI (s.indexAfterTransfer x))

@[simp] theorem State.bytesFromI_length (s : State) (n : Nat) : (s.bytesFromI n).length = n := by
  simp [State.bytesFromI]

theorem raise_eq_finish (s : State) (code : ErrorCode) (i : Instr) (addr : Option Nat) :
    raise s code i addr = finish s (.error (s.errorRecord code i addr)) := rfl

theorem spanEffect_inside {s : State} {n : Nat} (h : s.SpanInside n) (i : Instr) (u : State) :
    spanEffect s i n u = .advance u := if_pos h

theorem spanEffect_outside {s : State} {n : Nat} (h : ¬ s.SpanInside n) (i : Instr) (u : State) :
    spanEffect s i n u = .error (s.errorRecord .addressOutOfBounds i (some s.firstOutsideFromI)) := if_neg h

/-! ### Each case of an effect that has some -/

theorem effect_ret_empty {s : State} (h : s.sp.val = 0) :
    effect s .ret = .error (s.errorRecord .stackUnderflow .ret none) := dif_pos h

theorem effect_ret_entry {s : State} (h : s.sp.val ≠ 0) :
    effect s .ret =
      .set ((s.setStack s.stack ⟨s.sp.val - 1, by omega⟩).setPc (s.slot ⟨s.sp.val - 1, by omega⟩)) := dif_neg h

theorem effect_call_room {s : State} (h : s.sp.val < 16) (nnn : Addr) :
    effect s (.call nnn) =
      .set ((s.setStack (s.stack.set s.sp.val (s.pc + 2#16) h) ⟨s.sp.val + 1, by omega⟩).setPc (address nnn)) :=
  dif_pos h

theorem effect_call_full {s : State} (h : ¬ s.sp.val < 16) (nnn : Addr) :
    effect s (.call nnn) = .error (s.errorRecord .stackOverflow (.call nnn) none) := dif_neg h

theorem effect_addI_flag {s : State} (h : s.cfg.fx1eSetsVf = true) (x : Nibble) :
    effect s (.addI x) =
      .advance ((s.setI (s.i + wordOfByte (s.reg x))).setReg vF (indexOverflowFlag s.i (s.reg x))) := if_pos h

theorem effect_addI_plain {s : State} (h : ¬ s.cfg.fx1eSetsVf = true) (x : Nibble) :
    effect s (.addI x) = .advance (s.setI (s.i + wordOfByte (s.reg x))) := if_neg h

theorem effect_ldK_refused {s : State} (h : s.cfg.fx0aOnRelease = true) (x : Nibble) :
    effect s (.ldK x) = .refuse .fx0aOnRelease := if_pos h

theorem effect_ldK_key {s : State} (h : ¬ s.cfg.fx0aOnRelease = true) {k : Nibble} (hk : s.lowestKey = some k)
    (x : Nibble) : effect s (.ldK x) = .advance (s.setReg x (k.setWidth 8)) := by
  rw [effect, if_neg h, hk]

theorem effect_ldK_none {s : State} (h : ¬ s.cfg.fx0aOnRelease = true) (hk : s.lowestKey = none) (x : Nibble) :
    effect s (.ldK x) = .block := by
  rw [effect, if_neg h, hk]

/-- The three ends of Fx0A (45_keys_timers.md R203, R205, R208). -/
theorem effect_ldK_cases (s : State) (x : Nibble) :
    (s.cfg.fx0aOnRelease = true ∧ effect s (.ldK x) = .refuse .fx0aOnRelease) ∨
    (∃ k : Nibble, s.lowestKey = some k ∧ effect s (.ldK x) = .advance (s.setReg x (k.setWidth 8))) ∨
    (s.lowestKey = none ∧ effect s (.ldK x) = .block) := by
  by_cases h : s.cfg.fx0aOnRelease = true
  · exact .inl ⟨h, effect_ldK_refused h x⟩
  · cases hk : s.lowestKey with
    | some k => exact .inr (.inl ⟨k, rfl, effect_ldK_key h hk x⟩)
    | none => exact .inr (.inr ⟨rfl, effect_ldK_none h hk x⟩)

/-! ### `exec` is `finish` of the effect -/

/-- A read of the `n` bytes from I on, and what follows it. -/
theorem readSpan_eq_finish {s : State} {i : Instr} {n : Nat} {k : List Byte → State} :
    (match s.readSpan s.i.toNat n with
      | .error a => raise s .addressOutOfBounds i (some a)
      | .ok bytes => finish s (.advance (k bytes))) =
      finish s (spanEffect s i n (k (s.bytesFromI n))) := by
  rw [State.readSpan_eq]
  by_cases h : s.SpanInside n
  · rw [if_pos h, spanEffect_inside h]
    rfl
  · rw [if_neg h, spanEffect_outside h]
    rfl

/-- A write of bytes from I on, and what follows it. -/
theorem writeSpan_eq_finish {s : State} {i : Instr} {bytes : List Byte} {k : State → State} :
    (match s.writeSpan s.i.toNat bytes with
      | .error a => raise s .addressOutOfBounds i (some a)
      | .ok t => finish s (.advance (k t))) =
      finish s (spanEffect s i bytes.length (k (s.setMem (s.mem.pokeSpan s.i.toNat bytes)))) := by
  rw [State.writeSpan_eq]
  by_cases h : s.SpanInside bytes.length
  · rw [if_pos h, spanEffect_inside h]
  · rw [if_neg h, spanEffect_outside h]
    rfl

/-- Every instruction is its effect and then the post-step rule. -/
theorem exec_eq_finish (i : Instr) (s : State) : exec i s = finish s (effect s i) := by
  cases i with
  | ret =>
    by_cases h : s.sp.val = 0
    · simp only [exec, execRet, State.pop_none s h, effect_ret_empty h, raise_eq_finish]
    · simp only [exec, execRet, State.pop_some s h, effect_ret_entry h]
  | call nnn =>
    by_cases h : s.sp.val < 16
    · simp only [exec, execCall, State.push_some s _ h, effect_call_room h]
    · simp only [exec, execCall, State.push_none s _ h, effect_call_full h, raise_eq_finish]
  | addI x =>
    simp only [exec, execAddI, effect]
    split <;> rfl
  | ldK x =>
    simp only [exec, execLdK, effect]
    split
    · rfl
    · cases s.lowestKey with
      | some k | none => rfl
  | drw x y n => exact readSpan_eq_finish
  | ldB x => exact writeSpan_eq_finish (k := id)
  | stRegs x =>
    rw [effect, ← State.regsUpTo_length s x]
    exact writeSpan_eq_finish (k := fun t => t.setI (s.indexAfterTransfer x))
  | ldRegs x =>
    rw [effect, ← State.setRegsFrom_eq]
    exact readSpan_eq_finish (k := fun bytes => (s.setRegsFrom 0 bytes).setI (s.indexAfterTransfer x))
  | cls | jp | jpV0 | seImm | sneImm | seReg | sneReg | skp | sknp | ldImm | addImm | ldReg | orReg | andReg | xorReg
  | addReg | sub | subn | shr | shl | ldI | ldF | rnd | ldFromDt | ldDt | ldSt => rfl

/-- Everything an instruction that answers a next state has done (40_execution_cycle.md R105, R106, R109). -/
theorem exec_next_cases {i : Instr} {s t : State} (h : exec i s = .next t) :
    (∃ u, effect s i = .advance u ∧ t = (u.setPc (s.pc + 2#16)).stepDecay) ∨
    (∃ u, effect s i = .set u ∧ t = u.stepDecay) ∨
    (effect s i = .block ∧ t = s) ∨
    (∃ e, effect s i = .error e ∧ t = s.halt e) :=
  finish_next s t (effect s i) (exec_eq_finish i s ▸ h)

/-! ## What the effect keeps -/

/-- `P` holds of the state an effect goes on with, if there is one. -/
def Effect.Holds (P : State → Prop) : Effect → Prop
  | .advance u => P u
  | .set u => P u
  | .block | .error _ | .refuse _ => True

theorem Effect.Holds.of_advance {P : State → Prop} {e : Effect} {u : State} (h : e.Holds P) (he : e = .advance u) :
    P u := by
  subst he
  exact h

theorem Effect.Holds.of_set {P : State → Prop} {e : Effect} {u : State} (h : e.Holds P) (he : e = .set u) : P u := by
  subst he
  exact h

theorem skipEffect_holds {P : State → Prop} {s : State} (hs : P s) (hpc : P (s.setPc s.skipTarget)) (c : Bool) :
    (skipEffect s c).Holds P := by
  cases c with
  | true => exact hpc
  | false => exact hs

theorem spanEffect_holds {P : State → Prop} {s u : State} {i : Instr} {n : Nat} (h : s.SpanInside n → P u) :
    (spanEffect s i n u).Holds P := by
  by_cases hn : s.SpanInside n
  · rw [spanEffect_inside hn]
    exact h hn
  · rw [spanEffect_outside hn]
    trivial

theorem effect_ret_holds {P : State → Prop} {s : State}
    (h : ∀ (k : Fin 16) (p : Fin 17), P ((s.setStack s.stack p).setPc (s.slot k))) : (effect s .ret).Holds P := by
  by_cases hsp : s.sp.val = 0
  · rw [effect_ret_empty hsp]
    trivial
  · rw [effect_ret_entry hsp]
    exact h _ _

theorem effect_call_holds {P : State → Prop} {s : State} {nnn : Addr}
    (h : ∀ (k : Fin 16) (p : Fin 17),
      P ((s.setStack (s.stack.set k.val (s.pc + 2#16) k.isLt) p).setPc (address nnn))) :
    (effect s (.call nnn)).Holds P := by
  by_cases hsp : s.sp.val < 16
  · rw [effect_call_room hsp]
    exact h ⟨s.sp.val, hsp⟩ _
  · rw [effect_call_full hsp]
    trivial

theorem effect_addI_holds {P : State → Prop} {s : State} {x : Nibble}
    (hflag : s.cfg.fx1eSetsVf = true → ∀ a f, P ((s.setI a).setReg vF f)) (hplain : ∀ a, P (s.setI a)) :
    (effect s (.addI x)).Holds P := by
  by_cases hP4 : s.cfg.fx1eSetsVf = true
  · rw [effect_addI_flag hP4]
    exact hflag hP4 _ _
  · rw [effect_addI_plain hP4]
    exact hplain _

theorem effect_ldK_holds {P : State → Prop} {s : State} {x : Nibble} (h : ∀ b, P (s.setReg x b)) :
    (effect s (.ldK x)).Holds P := by
  rcases effect_ldK_cases s x with ⟨-, he⟩ | ⟨k, -, he⟩ | ⟨-, he⟩ <;> rw [he]
  · trivial
  · exact h _
  · trivial

/-! ## The parts an instruction writes -/

/-- `f` does not look at the part. -/
def Part.Ignored {α : Type} (f : State → α) : Part → Prop
  | .regs => ∀ u v, f (u.setRegs v) = f u
  | .index => ∀ u a, f (u.setI a) = f u
  | .pc => ∀ u a, f (u.setPc a) = f u
  | .stack => ∀ u w, f (u.setStack w u.sp) = f u
  | .sp => ∀ u p, f (u.setStack u.stack p) = f u
  | .disp => ∀ u d, f (u.setDisp d) = f u
  | .keys => ∀ u q, f { u with key := q } = f u
  | .dt => ∀ u b, f (u.setDt b) = f u
  | .st => ∀ u b, f (u.setSt b) = f u
  | .status => ∀ u e, f { u with status := e } = f u
  | .mem => ∀ u m, f (u.setMem m) = f u
  | .cfg => ∀ u c, f { u with cfg := c } = f u
  | .rndIn => ∀ u q, f { u with rndIn := q } = f u
  | .draws => ∀ u k, f { u with draws := k } = f u

/-- The parts an instruction can write before the post-step rule: the "written by" rules R21–R36 of 10_state.md, with I
under P7 for Fx55 and Fx65 (R24). -/
def effectParts (c : Config) : Instr → List Part
  | .cls => [.disp]
  | .ret => [.pc, .sp]
  | .call _ => [.pc, .stack, .sp]
  | .jp _ | .jpV0 _ | .seImm _ _ | .sneImm _ _ | .seReg _ _ | .sneReg _ _ | .skp _ | .sknp _ => [.pc]
  | .ldImm _ _ | .addImm _ _ | .ldReg _ _ | .orReg _ _ | .andReg _ _ | .xorReg _ _ => [.regs]
  | .addReg _ _ | .sub _ _ | .shr _ _ | .subn _ _ | .shl _ _ | .ldFromDt _ | .ldK _ => [.regs]
  | .ldI _ | .ldF _ => [.index]
  | .addI _ => [.index, .regs]
  | .rnd _ _ => [.regs, .rndIn, .draws]
  | .drw _ _ _ => [.disp, .regs]
  | .ldDt _ => [.dt]
  | .ldSt _ => [.st]
  | .ldB _ => [.mem]
  | .stRegs _ => .mem :: if c.loadStoreIncrementsI then [.index] else []
  | .ldRegs _ => .regs :: if c.loadStoreIncrementsI then [.index] else []

/-- Fx55 and Fx65 leave I alone but under P7. -/
theorem keeps_setI_indexAfterTransfer {α : Type} {f : State → α} {s : State} {x : Nibble}
    (hI : s.cfg.loadStoreIncrementsI = true → Part.Ignored f .index) {u : State} (hu : f u = f s) (hi : u.i = s.i) :
    f (u.setI (s.indexAfterTransfer x)) = f s := by
  unfold State.indexAfterTransfer
  split
  · rw [hI ‹_›, hu]
  · rw [← hi, ← hu]
    rfl

/-- What looks at no part an instruction writes is kept by it. -/
theorem effect_keeps {α : Type} {f : State → α} {s : State} {i : Instr}
    (h : ∀ p ∈ effectParts s.cfg i, p.Ignored f) : (effect s i).Holds fun u => f u = f s := by
  cases i with
  | cls => exact h .disp (by simp [effectParts]) s _
  | jp | jpV0 => exact h .pc (by simp [effectParts]) s _
  | seImm | sneImm | seReg | sneReg | skp | sknp =>
    exact skipEffect_holds (P := fun u => f u = f s) rfl (h .pc (by simp [effectParts]) s _) _
  | ret =>
    have hpc : Part.Ignored f .pc := h .pc (by simp [effectParts])
    have hsp : Part.Ignored f .sp := h .sp (by simp [effectParts])
    exact effect_ret_holds fun k p => (hpc _ _).trans (hsp s p)
  | call =>
    have hpc : Part.Ignored f .pc := h .pc (by simp [effectParts])
    have hsp : Part.Ignored f .sp := h .sp (by simp [effectParts])
    have hstack : Part.Ignored f .stack := h .stack (by simp [effectParts])
    refine effect_call_holds fun k p => (hpc _ _).trans ?_
    exact (hsp (s.setStack (s.stack.set k.val _ k.isLt) s.sp) p).trans (hstack s _)
  | ldImm | addImm | ldReg | orReg | andReg | xorReg | addReg | sub | shr | subn | shl | ldFromDt =>
    exact h .regs (by simp [effectParts]) s _
  | ldK =>
    have hregs : Part.Ignored f .regs := h .regs (by simp [effectParts])
    exact effect_ldK_holds fun b => hregs s _
  | ldI | ldF => exact h .index (by simp [effectParts]) s _
  | addI =>
    have hregs : Part.Ignored f .regs := h .regs (by simp [effectParts])
    have hindex : Part.Ignored f .index := h .index (by simp [effectParts])
    exact effect_addI_holds (fun _ a b => (hregs (s.setI a) _).trans (hindex s a)) fun a => hindex s a
  | rnd x nn =>
    have hregs : Part.Ignored f .regs := h .regs (by simp [effectParts])
    have hrndIn : Part.Ignored f .rndIn := h .rndIn (by simp [effectParts])
    have hdraws : Part.Ignored f .draws := h .draws (by simp [effectParts])
    exact (hdraws { s.setReg x (s.draw &&& nn) with rndIn := s.rndIn.tail } _).trans ((hrndIn _ _).trans (hregs s _))
  | drw =>
    have hregs : Part.Ignored f .regs := h .regs (by simp [effectParts])
    have hdisp : Part.Ignored f .disp := h .disp (by simp [effectParts])
    exact spanEffect_holds fun _ => (hregs (s.setDisp _) _).trans (hdisp s _)
  | ldDt => exact h .dt (by simp [effectParts]) s _
  | ldSt => exact h .st (by simp [effectParts]) s _
  | ldB =>
    have hmem : Part.Ignored f .mem := h .mem (by simp [effectParts])
    exact spanEffect_holds fun _ => hmem s _
  | stRegs x =>
    have hmem : Part.Ignored f .mem := h .mem (by simp [effectParts])
    exact spanEffect_holds fun _ =>
      keeps_setI_indexAfterTransfer (fun hP7 => h .index (by simp [effectParts, hP7])) (hmem s _) rfl
  | ldRegs x =>
    have hregs : Part.Ignored f .regs := h .regs (by simp [effectParts])
    exact spanEffect_holds fun _ =>
      keeps_setI_indexAfterTransfer (fun hP7 => h .index (by simp [effectParts, hP7])) (hregs s _) rfl

/-- The end of a step writes pc, the timers or the status (40_execution_cycle.md R106, R109, 60_exceptions.md R233). -/
def finishParts : List Part := [.pc, .dt, .st, .status]

theorem keeps_stepDecay {α : Type} {f : State → α} (hdt : Part.Ignored f .dt) (hst : Part.Ignored f .st) (u : State) :
    f u.stepDecay = f u := by
  unfold State.stepDecay
  split
  · exact (hst (u.setDt (decayed u.dt)) _).trans (hdt u _)
  · rfl

/-- What the effect keeps the step keeps, if it looks at no part that the end of a step writes. -/
theorem exec_keeps {α : Type} {f : State → α} {i : Instr} {s t : State} (hfinish : ∀ p ∈ finishParts, p.Ignored f)
    (heffect : (effect s i).Holds fun u => f u = f s) (h : exec i s = .next t) : f t = f s := by
  have hpc : Part.Ignored f .pc := hfinish .pc (by simp [finishParts])
  have hstatus : Part.Ignored f .status := hfinish .status (by simp [finishParts])
  have hdecay := keeps_stepDecay (hfinish .dt (by simp [finishParts])) (hfinish .st (by simp [finishParts]))
  rcases exec_next_cases h with ⟨u, hu, rfl⟩ | ⟨u, hu, rfl⟩ | ⟨-, rfl⟩ | ⟨e, -, rfl⟩
  · exact (hdecay _).trans ((hpc u _).trans (heffect.of_advance hu))
  · exact (hdecay _).trans (heffect.of_set hu)
  · rfl
  · exact hstatus s _

/-! ## The fields by part -/

/-- The type of a part's field. -/
def Part.Value : Part → Type
  | .regs => Vector Byte 16
  | .index | .pc => Word
  | .stack => Vector Word 16
  | .sp => Fin 17
  | .disp => Display
  | .keys => Vector Bool 16
  | .dt | .st => Byte
  | .status => Status
  | .mem => Memory
  | .cfg => Config
  | .rndIn => List Byte
  | .draws => Nat

/-- The field of a part. -/
def Part.get : (p : Part) → State → p.Value
  | .regs => State.v
  | .index => State.i
  | .pc => State.pc
  | .stack => State.stack
  | .sp => State.sp
  | .disp => State.disp
  | .keys => State.key
  | .dt => State.dt
  | .st => State.st
  | .status => State.status
  | .mem => State.mem
  | .cfg => State.cfg
  | .rndIn => State.rndIn
  | .draws => State.draws

/-- A field looks at no part but its own. -/
theorem Part.ignored_get {p q : Part} (h : p ≠ q) : p.Ignored q.get := by
  cases p <;> cases q <;> try contradiction
  all_goals exact fun _ _ => rfl

theorem effect_keeps_part {q : Part} {s : State} {i : Instr} (hq : q ∉ effectParts s.cfg i) :
    (effect s i).Holds fun u => q.get u = q.get s :=
  effect_keeps fun _ hp => Part.ignored_get fun hpq => hq (hpq ▸ hp)

theorem Part.same_of_get_eq {p : Part} {s t : State} (h : p.get t = p.get s) : p.Same s t := by
  cases p with
  | regs => exact fun r => congrArg (fun v : Vector Byte 16 => v[r.toNat]'r.isLt) h
  | stack => exact fun k => congrArg (fun w : Vector Word 16 => w[k.val]'k.isLt) h
  | keys => exact fun k => congrArg (fun q : Vector Bool 16 => q[k.toNat]'k.isLt) h
  | mem => exact fun a => congrArg (fun m : Memory => m.peek a) h
  | disp => exact fun px py => congrArg (fun d : Display => d.pixel px py) h
  | index | pc | sp | dt | st | status | cfg | rndIn | draws => exact h

/-- The frame of an effect: everything but the parts of the instruction. -/
theorem effect_sameBut (s : State) (i : Instr) : (effect s i).Holds (SameBut (effectParts s.cfg i) s) := by
  cases he : effect s i with
  | advance u => exact fun p hp => Part.same_of_get_eq ((effect_keeps_part hp).of_advance he)
  | set u => exact fun p hp => Part.same_of_get_eq ((effect_keeps_part hp).of_set he)
  | block | error | refuse => trivial

theorem exec_keeps_part {q : Part} {i : Instr} {s t : State} (hq : q ∉ finishParts ++ effectParts s.cfg i)
    (h : exec i s = .next t) : q.get t = q.get s :=
  exec_keeps (fun _ hp => Part.ignored_get fun hpq => hq (List.mem_append_left _ (hpq ▸ hp)))
    (effect_keeps_part fun hp => hq (List.mem_append_right _ hp)) h

/-- A step writes what the instruction it fetches writes, and what the end of a step writes. -/
theorem step_keeps_part {q : Part} {s t : State} (hfinish : q ∉ finishParts)
    (heffect : ∀ i, FetchesInstr s i → q ∉ effectParts s.cfg i) (h : step s = .next t) : q.get t = q.get s := by
  have hignored (p : Part) (hp : p ∈ finishParts) : p.Ignored q.get := Part.ignored_get fun hpq => hfinish (hpq ▸ hp)
  have hstatus : Part.Ignored q.get .status := hignored .status (by simp [finishParts])
  cases hs : s.status with
  | halted e =>
    rw [step_halted hs] at h
    cases h
    rfl
  | running =>
    rcases step_next_cases hs h with ⟨-, rfl⟩ | ⟨-, ⟨-, rfl⟩ | ⟨-, rfl⟩⟩ | ⟨i, hi, hexec⟩
    · exact hstatus s _
    · exact (keeps_stepDecay (hignored .dt (by simp [finishParts])) (hignored .st (by simp [finishParts])) _).trans
        (hignored .pc (by simp [finishParts]) s _)
    · exact hstatus s _
    · exact exec_keeps_part (fun hq => (List.mem_append.mp hq).elim hfinish (heffect i hi)) hexec

/-! ## What no instruction does -/

/-- Settles O35: the display is a part of 00E0 and Dxyn only. -/
theorem onlyClsAndDrwWriteTheDisplay : Obligations.OnlyClsAndDrwWriteTheDisplay := by
  intro i s t hcls hdrw h
  refine exec_keeps_part (q := .disp) ?_ h
  cases i with
  | cls => exact absurd rfl hcls
  | drw x y n => exact absurd rfl (hdrw x y n)
  | _ => simp [finishParts, effectParts]

theorem mem_not_mem_effectParts {i : Instr} (h : i.needsExtMem = false) (c : Config) : .mem ∉ effectParts c i := by
  cases i with
  | ldB | stRegs | ldRegs => exact absurd h (by simp [Instr.needsExtMem])
  | _ => simp [effectParts]

/-- Settles O46: without P6 nothing of the optional group is fetched. -/
theorem noStepWritesMemoryWithoutP6 : Obligations.NoStepWritesMemoryWithoutP6 := by
  intro s t hp6 h
  refine step_keeps_part (q := .mem) (by simp [finishParts]) (fun i hi => ?_) h
  obtain ⟨-, -, hdecode⟩ := hi
  have hwf : i.wellFormed s.cfg.extMemOps = true := (encode_of_decode hdecode).2
  exact mem_not_mem_effectParts (by simpa [Instr.wellFormed, hp6] using hwf) _

theorem keys_cfg_not_mem_effectParts (c : Config) (i : Instr) : .keys ∉ effectParts c i ∧ .cfg ∉ effectParts c i := by
  cases i with
  | _ => simp [effectParts]

/-- Settles O47: neither is a part of any instruction. -/
theorem noStepWritesKeysOrParameters : Obligations.NoStepWritesKeysOrParameters := fun s _ h =>
  ⟨step_keeps_part (q := .keys) (by simp [finishParts]) (fun i _ => (keys_cfg_not_mem_effectParts s.cfg i).1) h,
    step_keeps_part (q := .cfg) (by simp [finishParts]) (fun i _ => (keys_cfg_not_mem_effectParts s.cfg i).2) h⟩

theorem stack_not_mem_effectParts {i : Instr} (hcall : ∀ nnn, i ≠ .call nnn) (c : Config) :
    .stack ∉ effectParts c i := by
  cases i with
  | call nnn => exact absurd rfl (hcall nnn)
  | _ => simp [effectParts]

/-- Settles O48: the slots are a part of 2nnn only, and sp of 2nnn and 00EE only. -/
theorem onlyCallAndReturnTouchTheStack : Obligations.OnlyCallAndReturnTouchTheStack := by
  intro i s t hcall h
  refine ⟨exec_keeps_part (q := .stack) ?_ h, fun hret => exec_keeps_part (q := .sp) ?_ h⟩
  · simpa [finishParts] using stack_not_mem_effectParts hcall s.cfg
  · cases i with
    | call nnn => exact absurd rfl (hcall nnn)
    | ret => exact absurd rfl hret
    | _ => simp [finishParts, effectParts]

/-- Settles O49: I is a part of the listed instructions only. -/
theorem indexIsWrittenOnlyByItsInstructions : Obligations.IndexIsWrittenOnlyByItsInstructions := by
  intro i s t hldI haddI hldF hP7 h
  refine exec_keeps_part (q := .index) ?_ h
  cases i with
  | ldI nnn => exact absurd rfl (hldI nnn)
  | addI x => exact absurd rfl (haddI x)
  | ldF x => exact absurd rfl (hldF x)
  | stRegs x | ldRegs x =>
    have : s.cfg.loadStoreIncrementsI = false := by simpa using hP7
    simp [finishParts, effectParts, this]
  | _ => simp [finishParts, effectParts]

theorem Part.ignored_reg {p : Part} (h : p ≠ .regs) (r : Nibble) : p.Ignored fun u => u.reg r := by
  cases p with
  | regs => exact absurd rfl h
  | _ => exact fun _ _ => rfl

/-- A register that is no destination of the instruction and not its flag keeps its value (10_state.md R21, R23). -/
theorem effect_reg {s : State} {i : Instr} {r : Nibble} (hr : r ∉ writtenRegs s.cfg i) :
    (effect s i).Holds fun u => u.reg r = s.reg r := by
  cases i with
  | ldImm x | addImm x | ldReg x | orReg x | andReg x | xorReg x | ldFromDt x | rnd x =>
    exact State.setReg_regsSameBut s x _ r hr
  | ldK x => exact effect_ldK_holds fun b => State.setReg_regsSameBut s x b r hr
  | addReg x | sub x | shr x | subn x | shl x =>
    obtain ⟨hx, hflag⟩ : r ≠ x ∧ r ≠ vF := by simpa [writtenRegs, vF] using hr
    show (State.setRegFlag s x _ _).reg r = s.reg r
    rw [State.setRegFlag_reg, if_neg hflag, if_neg hx]
  | addI x =>
    refine effect_addI_holds (fun hP4 a f => ?_) fun _ => rfl
    exact State.setReg_regsSameBut (s.setI a) vF f r (by simpa [writtenRegs, vF, hP4] using hr)
  | drw x y n => exact spanEffect_holds fun _ => State.setReg_regsSameBut (s.setDisp _) vF _ r hr
  | ldRegs x =>
    have hx : ¬ (0 ≤ r.toNat ∧ r.toNat < 0 + (s.bytesFromI (x.toNat + 1)).length) := by
      intro h
      refine hr (List.mem_map.mpr ⟨r.toNat, List.mem_range.mpr ?_, BitVec.ofNat_toNat 4 r⟩)
      simpa using h
    refine spanEffect_holds fun _ => (State.setRegsFrom_reg s 0 _ ?_ r).trans (if_neg hx)
    rw [State.bytesFromI_length]
    omega
  | _ => exact effect_keeps fun p hp => Part.ignored_reg (by rintro rfl; simp [effectParts] at hp) r

/-- Settles O50: the effect writes no other register, and the end of a step writes none. -/
theorem instructionsWriteOnlyTheirRegisters : Obligations.InstructionsWriteOnlyTheirRegisters := by
  intro i s t h r hr
  exact exec_keeps (fun p hp => Part.ignored_reg (by rintro rfl; simp [finishParts] at hp) r) (effect_reg hr) h

/-! ## Advance, and no refusal -/

theorem spanEffect_advance_or_error (s : State) (i : Instr) (n : Nat) (u : State) :
    (∃ u', spanEffect s i n u = .advance u') ∨ ∃ e, spanEffect s i n u = .error e := by
  by_cases h : s.SpanInside n
  · exact .inl ⟨u, spanEffect_inside h i u⟩
  · exact .inr ⟨_, spanEffect_outside h i u⟩

theorem effect_advance_or_error {i : Instr} (hi : mayNotAdvance i = false) (s : State) :
    (∃ u, effect s i = .advance u) ∨ ∃ e, effect s i = .error e := by
  cases i with
  | ret | call | jp | jpV0 | seImm | sneImm | seReg | sneReg | skp | sknp | ldK => exact Bool.noConfusion hi
  | drw | ldB | stRegs | ldRegs => exact spanEffect_advance_or_error s _ _ _
  | addI x =>
    by_cases hP4 : s.cfg.fx1eSetsVf = true
    · exact .inl ⟨_, effect_addI_flag hP4 x⟩
    · exact .inl ⟨_, effect_addI_plain hP4 x⟩
  | _ => exact .inl ⟨_, rfl⟩

/-- Settles O13: such an instruction ends in Advance, or in an error, which halts. -/
theorem straightLineInstructionsAdvanceByTwo : Obligations.StraightLineInstructionsAdvanceByTwo := by
  intro i s t hi h hrunning
  rcases effect_advance_or_error hi s with ⟨u, hu⟩ | ⟨e, he⟩
  · rw [exec_eq_finish, hu] at h
    cases h
    exact State.stepDecay_pc _
  · rw [exec_eq_finish, he] at h
    cases h
    exact absurd hrunning (by simp)

theorem effect_skip_advance_or_set {s : State} {i : Instr} {c : Bool} (h : effect s i = skipEffect s c) :
    ∃ u, effect s i = .advance u ∨ effect s i = .set u := by
  cases c with
  | true => exact ⟨_, .inr h⟩
  | false => exact ⟨_, .inl h⟩

/-- Every instruction but Fx0A ends in Advance, in Set or in an error (40_execution_cycle.md R105). -/
theorem effect_goes_on_or_error {i : Instr} (hi : ∀ x, i ≠ .ldK x) (s : State) :
    (∃ u, effect s i = .advance u ∨ effect s i = .set u) ∨ ∃ e, effect s i = .error e := by
  cases i with
  | ldK x => exact absurd rfl (hi x)
  | jp | jpV0 => exact .inl ⟨_, .inr rfl⟩
  | seImm | sneImm | seReg | sneReg | skp | sknp => exact .inl (effect_skip_advance_or_set rfl)
  | ret =>
    by_cases h : s.sp.val = 0
    · exact .inr ⟨_, effect_ret_empty h⟩
    · exact .inl ⟨_, .inr (effect_ret_entry h)⟩
  | call nnn =>
    by_cases h : s.sp.val < 16
    · exact .inl ⟨_, .inr (effect_call_room h nnn)⟩
    · exact .inr ⟨_, effect_call_full h nnn⟩
  | _ => exact (effect_advance_or_error rfl s).imp (fun ⟨u, hu⟩ => ⟨u, .inl hu⟩) id

/-- Fx0A under P5 is all that is refused (45_keys_timers.md R208). -/
theorem effect_ne_refuse {s : State} (hP5 : s.cfg.fx0aOnRelease = false) (i : Instr) (r : Refusal) :
    effect s i ≠ .refuse r := by
  intro h
  by_cases hi : ∃ x, i = .ldK x
  · obtain ⟨x, rfl⟩ := hi
    rcases effect_ldK_cases s x with ⟨hP5', -⟩ | ⟨k, -, he⟩ | ⟨-, he⟩
    · simp [hP5] at hP5'
    · cases he.symm.trans h
    · cases he.symm.trans h
  · rcases effect_goes_on_or_error (not_exists.mp hi) s with ⟨u, hu | hu⟩ | ⟨e, hu⟩ <;> cases hu.symm.trans h

theorem exec_next {s : State} (hP5 : s.cfg.fx0aOnRelease = false) (i : Instr) : ∃ t, exec i s = .next t := by
  rw [exec_eq_finish]
  cases he : effect s i with
  | refuse r => exact absurd he (effect_ne_refuse hP5 i r)
  | advance | set | block | error => exact ⟨_, rfl⟩

/-- Settles O14: a fetch error and a decode error have a next state, and so has every instruction. -/
theorem everyStepAnswersANextState : Obligations.EveryStepAnswersANextState := by
  intro s hP5
  unfold step
  split
  · exact ⟨_, rfl⟩
  · unfold stepRunning
    split
    · split
      · exact exec_next hP5 _
      · unfold decodeError
        split <;> exact ⟨_, rfl⟩
    · exact ⟨_, rfl⟩

end Sys2Proof.Machine
end

section
/-!
PROOF. What no instruction reads (10_state.md R31, R33, 43_index_random.md R181): an instruction that does not look at a
field commutes with changing it.
-/

namespace Sys2Proof.Machine

/-- Settles O25: the commutation with the random source at one next state. -/
theorem onlyRndReadsTheDraw : Obligations.OnlyRndReadsTheDraw := by
  intro i s t q k hi h
  have hcomm := onNext_withDraws_exec hi q k s
  rw [h] at hcomm
  exact hcomm.symm

/-! ## Changing the latch and ST -/

/-- `s` with the latch `f key` and the sound timer `g ST`. -/
def State.mapKeySt (f : Vector Bool 16 → Vector Bool 16) (g : Byte → Byte) (s : State) : State :=
  { s with key := f s.key, st := g s.st }

/-- An effect with the state it goes on with changed. -/
def Effect.map (F : State → State) : Effect → Effect
  | .advance u => .advance (F u)
  | .set u => .set (F u)
  | .block => .block
  | .error e => .error e
  | .refuse r => .refuse r

theorem skipEffect_map (F : State → State) {s : State} (hpc : (F s).setPc (F s).skipTarget = F (s.setPc s.skipTarget))
    (c : Bool) : skipEffect (F s) c = (skipEffect s c).map F := by
  cases c with
  | true => exact congrArg Effect.set hpc
  | false => rfl

theorem spanEffect_map (F : State → State) {s u u' : State} (hi : (F s).i = s.i) (hpc : (F s).pc = s.pc)
    (hu : u' = F u) (i : Instr) (n : Nat) : spanEffect (F s) i n u' = (spanEffect s i n u).map F := by
  subst hu
  have hspan : (F s).SpanInside n ↔ s.SpanInside n := by rw [State.SpanInside, State.SpanInside, hi]
  by_cases h : s.SpanInside n
  · rw [spanEffect_inside h, spanEffect_inside (hspan.mpr h)]
    rfl
  · rw [spanEffect_outside h, spanEffect_outside (hspan.not.mpr h), State.firstOutsideFromI, State.errorRecord, hi, hpc]
    rfl

theorem State.setRegsFrom_v_congr {s s' : State} (h : s.v = s'.v) (k : Nat) (bytes : List Byte) :
    (s.setRegsFrom k bytes).v = (s'.setRegsFrom k bytes).v := by
  induction bytes generalizing s s' k with
  | nil => exact h
  | cons b bs ih =>
    refine ih ?_ (k + 1)
    simp only [State.setReg, h]

/-- The instructions that read the latch (10_state.md R31). -/
def readsKeys : Instr → Bool
  | .skp _ | .sknp _ | .ldK _ => true
  | _ => false

/-- An effect neither reads ST nor, but for the key instructions, the latch; Fx18 alone writes ST (R31, R33). -/
theorem effect_mapKeySt {f : Vector Bool 16 → Vector Bool 16} {g : Byte → Byte} {i : Instr}
    (hf : readsKeys i = true → f = id) (hg : (∃ x, i = .ldSt x) → g = id) (s : State) :
    effect (s.mapKeySt f g) i = (effect s i).map (State.mapKeySt f g) := by
  cases i with
  | seImm | sneImm | seReg | sneReg => exact skipEffect_map (State.mapKeySt f g) rfl _
  | skp | sknp =>
    obtain rfl := hf rfl
    exact skipEffect_map (State.mapKeySt id g) rfl _
  | ldK x =>
    obtain rfl := hf rfl
    by_cases hP5 : s.cfg.fx0aOnRelease = true
    · rw [effect_ldK_refused hP5, effect_ldK_refused (s := s.mapKeySt id g) hP5]
      rfl
    · cases hk : s.lowestKey with
      | some k =>
        rw [effect_ldK_key hP5 hk, effect_ldK_key (s := s.mapKeySt id g) hP5 hk]
        rfl
      | none =>
        rw [effect_ldK_none hP5 hk, effect_ldK_none (s := s.mapKeySt id g) hP5 hk]
        rfl
  | ldSt x =>
    obtain rfl := hg ⟨x, rfl⟩
    rfl
  | ret =>
    by_cases h : s.sp.val = 0
    · rw [effect_ret_empty h, effect_ret_empty (s := s.mapKeySt f g) h]
      rfl
    · rw [effect_ret_entry h, effect_ret_entry (s := s.mapKeySt f g) h]
      rfl
  | call nnn =>
    by_cases h : s.sp.val < 16
    · rw [effect_call_room h, effect_call_room (s := s.mapKeySt f g) h]
      rfl
    · rw [effect_call_full h, effect_call_full (s := s.mapKeySt f g) h]
      rfl
  | addI x =>
    by_cases h : s.cfg.fx1eSetsVf = true
    · rw [effect_addI_flag h, effect_addI_flag (s := s.mapKeySt f g) h]
      rfl
    · rw [effect_addI_plain h, effect_addI_plain (s := s.mapKeySt f g) h]
      rfl
  | drw | ldB | stRegs => 
    refine spanEffect_map (State.mapKeySt f g) rfl rfl ?_ _ _
    rfl
  | ldRegs x =>
    refine spanEffect_map (State.mapKeySt f g) rfl rfl ?_ _ _
    rw [State.setRegsFrom_v_congr (s := s.mapKeySt f g) (s' := s) rfl]
    rfl
  | _ => rfl

theorem finish_mapKeySt (f : Vector Bool 16 → Vector Bool 16) (s : State) (e : Effect) :
    finish (s.mapKeySt f id) (e.map (State.mapKeySt f id)) = onNext (State.mapKeySt f id) (finish s e) := by
  have hdecay (u : State) : (u.mapKeySt f id).stepDecay = u.stepDecay.mapKeySt f id := by
    unfold State.stepDecay
    exact (apply_ite (State.mapKeySt f id) (u.cfg.stepDecaysTimers = true) u.decay u).symm
  cases e with
  | advance u => exact congrArg Host.Outcome.next (hdecay (u.setPc (s.pc + 2#16)))
  | set u => exact congrArg Host.Outcome.next (hdecay u)
  | block | error e | refuse r => rfl

/-- Settles O42: such an instruction commutes with changing the latch, and so does the end of its step. -/
theorem onlyKeyInstructionsReadTheLatch : Obligations.OnlyKeyInstructionsReadTheLatch := by
  intro i s t q hskp hsknp hldK h
  have hkeys : readsKeys i = false := by
    cases i with
    | skp x => exact absurd rfl (hskp x)
    | sknp x => exact absurd rfl (hsknp x)
    | ldK x => exact absurd rfl (hldK x)
    | _ => rfl
  calc exec i (s.mapKeySt (fun _ => q) id)
      = finish (s.mapKeySt (fun _ => q) id) ((effect s i).map (State.mapKeySt (fun _ => q) id)) := by
        rw [exec_eq_finish, effect_mapKeySt (by simp [hkeys]) fun _ => rfl]
    _ = onNext (State.mapKeySt (fun _ => q) id) (exec i s) := by rw [finish_mapKeySt, exec_eq_finish]
    _ = .next (t.mapKeySt (fun _ => q) id) := by rw [h, onNext_next]

/-- ST after the end of a step, whatever it was: only its own decay looks at it. -/
theorem stepDecay_mapKeySt_id (b : Byte) (u : State) :
    ∃ b', (u.mapKeySt id fun _ => b).stepDecay = u.stepDecay.mapKeySt id fun _ => b' := by
  unfold State.stepDecay
  by_cases h : u.cfg.stepDecaysTimers = true
  · exact ⟨decayed b, by rw [if_pos h]; exact if_pos h⟩
  · exact ⟨b, by rw [if_neg h]; exact if_neg h⟩

theorem effect_setSt (s : State) (i : Instr) (b : Byte) :
    ∃ b', effect (s.mapKeySt id fun _ => b) i = (effect s i).map (State.mapKeySt id fun _ => b') := by
  by_cases hi : ∃ x, i = .ldSt x
  · obtain ⟨x, rfl⟩ := hi
    exact ⟨s.reg x, rfl⟩
  · exact ⟨b, effect_mapKeySt (fun _ => rfl) (fun h => absurd h hi) s⟩

/-- Settles O41: the effect goes on with some ST and else the same state, and so does the end of the step. -/
theorem noInstructionReadsTheSoundTimer : Obligations.NoInstructionReadsTheSoundTimer := by
  intro i s t b h
  show ∃ b', exec i (s.mapKeySt id fun _ => b) = .next (t.mapKeySt id fun _ => b')
  obtain ⟨c, hc⟩ := effect_setSt s i b
  rw [exec_eq_finish, hc]
  rcases exec_next_cases h with ⟨u, hu, rfl⟩ | ⟨u, hu, rfl⟩ | ⟨hb, rfl⟩ | ⟨e, he, rfl⟩
  · obtain ⟨b', hb'⟩ := stepDecay_mapKeySt_id c (u.setPc (s.pc + 2#16))
    exact ⟨b', by rw [hu, ← hb']; rfl⟩
  · obtain ⟨b', hb'⟩ := stepDecay_mapKeySt_id c u
    exact ⟨b', by rw [hu, ← hb']; rfl⟩
  · exact ⟨b, by rw [hb]; rfl⟩
  · exact ⟨b, by rw [he]; rfl⟩

end Sys2Proof.Machine
end

section
/-!
PROOF. The step (40_execution_cycle.md R101–R109) and its errors (60_exceptions.md R231–R234): how a step halts, with
which record, and what it does to the timers.
-/

namespace Sys2Proof.Machine

/-! ## Fetch and decode -/

/-- Settles O6: the checks before `decode` pass. -/
theorem stepRunsTheDecodedInstruction : Obligations.StepRunsTheDecodedInstruction :=
  fun _ _ h => step_of_fetchesInstr h

theorem step_outside {s : State} (hs : s.status = .running) (h : 0xFFE < s.pc.toNat) :
    step s = .next (s.halt s.fetchError) := by
  have hf : ¬ s.canFetch = true := by rw [s.canFetch_iff]; omega
  simp only [step, hs, stepRunning, if_neg hf]
  rfl

/-- Settles O7: the first check of a step fails. -/
theorem fetchOutsideMemoryHalts : Obligations.FetchOutsideMemoryHalts :=
  fun _ hs h => ⟨step_outside hs h, stepReport_outside hs h⟩

theorem step_of_fetchesUnknown {s : State} {op : Word} (h : FetchesUnknown s op) : step s = decodeError s op := by
  obtain ⟨hstatus, hpc, hdecode⟩ := h
  simp only [step, hstatus, stepRunning, s.canFetch_iff.mpr hpc, if_true, State.opcodeAtPc, opcodeOfBytes, hdecode]

theorem decodeError_skip {s : State} (hp : s.cfg.decodeErrorPolicy = .skip) (op : Word) :
    decodeError s op = .next (s.setPc (s.pc + 2#16)).stepDecay := by
  rw [decodeError, hp]
  rfl

theorem decodeError_halt {s : State} (hp : s.cfg.decodeErrorPolicy = .halt) (op : Word) :
    decodeError s op = .next (s.halt (s.decodeErrorRecord op)) := by
  rw [decodeError, hp]
  rfl

/-- Settles O8: skipped, the opcode is a write of pc alone. -/
theorem decodeErrorIsSkippedOrFatal : Obligations.DecodeErrorIsSkippedOrFatal := by
  intro s op h
  rw [step_of_fetchesUnknown h]
  refine ⟨fun hp => ⟨⟨_, decodeError_skip hp op, wrotePc_setPc_stepDecay s _⟩, ?_⟩, fun hp => ?_⟩
  · exact stepReport_of_fetchesUnknown_skip h hp
  · exact ⟨decodeError_halt hp op, stepReport_of_fetchesUnknown_halt h hp⟩

/-! ## A halted core (R108, R234) -/

theorem stepReport_halted {s : State} {e : ErrorRecord} (hs : s.status = .halted e) : stepReport s = .halted e := by
  rw [stepReport, hs]

theorem stepWithDraw_halted {s : State} {e : ErrorRecord} (hs : s.status = .halted e) (rnd : Byte) :
    stepWithDraw rnd s = .next s := by
  rw [stepWithDraw, step_halted (s := { s with rndIn := [rnd] }) hs]

theorem tick_halted {s : State} {e : ErrorRecord} (hs : s.status = .halted e) : tick s = s := by
  rw [tick, hs]

/-- Settles O9: step and tick are the identity, and a key changes no status. -/
theorem haltedCoreStaysHalted : Obligations.HaltedCoreStaysHalted := by
  intro s e hs
  refine ⟨step_halted hs, stepWithDraw_halted hs, stepReport_halted hs, tick_halted hs,
    fun k b => ⟨hs, setKey_keyDown_same s k b⟩, fun op t h => ?_⟩
  cases op with
  | reset rom => exact .inr ⟨rom, rfl⟩
  | step rnd =>
    obtain rfl : s = t := Host.Outcome.next.inj ((stepWithDraw_halted hs rnd).symm.trans h)
    exact .inl hs
  | tick =>
    obtain rfl : s = t := (tick_halted hs).symm.trans (Host.Outcome.next.inj h)
    exact .inl hs
  | setKey k b =>
    cases h
    exact .inl hs

/-! ## Which errors an instruction raises (R231, R232) -/

/-- The instruction transfers the byte at I + k (44_display.md R191, 46_ext_memory.md R220–R222). -/
def TransfersByte (i : Instr) (k : Nat) : Prop :=
  (∃ x y n, i = .drw x y n ∧ k < n.toNat) ∨ (∃ x, i = .ldB x ∧ k < 3) ∨
    (∃ x, i = .stRegs x ∧ k ≤ x.toNat) ∨ ∃ x, i = .ldRegs x ∧ k ≤ x.toNat

/-- The cause of an error of the instruction `i`: a full or an empty stack, or an access above 0xFFF by one of the bytes
that the instruction transfers. -/
def ErrorCause (s : State) (i : Instr) (e : ErrorRecord) : Prop :=
  (e.code = .stackOverflow ∧ e.addr = none ∧ s.sp.val = 16 ∧ ∃ nnn, i = .call nnn) ∨
  (e.code = .stackUnderflow ∧ e.addr = none ∧ s.sp.val = 0 ∧ i = .ret) ∨
  (e.code = .addressOutOfBounds ∧
    ∃ (a : Word) (k : Nat), e.addr = some a ∧ 0xFFF < a.toNat ∧ a.toNat = s.i.toNat + k ∧ TransfersByte i k)

/-- The first address outside memory is that of one of the bytes. -/
theorem firstOutsideFromI_toNat {s : State} {n : Nat} (h : ¬ s.SpanInside n) :
    ∃ k, k < n ∧ 0xFFF < (BitVec.ofNat 16 s.firstOutsideFromI).toNat ∧
      (BitVec.ofNat 16 s.firstOutsideFromI).toNat = s.i.toNat + k := by
  obtain ⟨hn, hend⟩ := not_or.mp h
  have hi := s.i.isLt
  unfold State.firstOutsideFromI
  split
  · exact ⟨0, by omega, by rw [BitVec.toNat_ofNat]; omega, by rw [BitVec.toNat_ofNat]; omega⟩
  · exact ⟨0x1000 - s.i.toNat, by omega, by decide, by rw [BitVec.toNat_ofNat]; omega⟩

theorem spanEffect_error {s u : State} {i : Instr} {n : Nat} {e : ErrorRecord}
    (hbytes : ∀ k, k < n → TransfersByte i k) (h : spanEffect s i n u = .error e) :
    e.pc = s.pc ∧ e.opcode = some (encode i) ∧ ErrorCause s i e := by
  by_cases hn : s.SpanInside n
  · cases (spanEffect_inside hn i u).symm.trans h
  · cases (spanEffect_outside hn i u).symm.trans h
    obtain ⟨k, hk, hout, hadd⟩ := firstOutsideFromI_toNat hn
    exact ⟨rfl, rfl, .inr (.inr ⟨rfl, _, k, rfl, hout, hadd, hbytes k hk⟩)⟩

/-- Every error of an instruction has a cause of R232's table. -/
theorem effect_error {s : State} {i : Instr} {e : ErrorRecord} (h : effect s i = .error e) :
    e.pc = s.pc ∧ e.opcode = some (encode i) ∧ ErrorCause s i e := by
  cases i with
  | ret =>
    by_cases hsp : s.sp.val = 0
    · cases (effect_ret_empty hsp).symm.trans h
      exact ⟨rfl, rfl, .inr (.inl ⟨rfl, rfl, hsp, rfl⟩)⟩
    · cases (effect_ret_entry hsp).symm.trans h
  | call nnn =>
    by_cases hsp : s.sp.val < 16
    · cases (effect_call_room hsp nnn).symm.trans h
    · cases (effect_call_full hsp nnn).symm.trans h
      exact ⟨rfl, rfl, .inl ⟨rfl, rfl, by omega, nnn, rfl⟩⟩
  | drw x y n => exact spanEffect_error (fun k hk => .inl ⟨x, y, n, rfl, hk⟩) h
  | ldB x => exact spanEffect_error (fun k hk => .inr (.inl ⟨x, rfl, hk⟩)) h
  | stRegs x => exact spanEffect_error (fun k hk => .inr (.inr (.inl ⟨x, rfl, Nat.le_of_lt_succ hk⟩))) h
  | ldRegs x => exact spanEffect_error (fun k hk => .inr (.inr (.inr ⟨x, rfl, Nat.le_of_lt_succ hk⟩))) h
  | addI x =>
    by_cases hP4 : s.cfg.fx1eSetsVf = true
    · cases (effect_addI_flag hP4 x).symm.trans h
    · cases (effect_addI_plain hP4 x).symm.trans h
  | ldK x =>
    rcases effect_ldK_cases s x with ⟨-, he⟩ | ⟨k, -, he⟩ | ⟨-, he⟩ <;> cases he.symm.trans h
  | seImm | sneImm | seReg | sneReg | skp | sknp =>
    simp only [effect, skipEffect] at h
    split at h <;> cases h
  | _ => cases h

/-! ## How a step halts (R233) -/

theorem execReport_halted {i : Instr} {s t : State} {e : ErrorRecord} (h : exec i s = .next t)
    (ht : t.status = .halted e) : execReport i s = .halted e := by
  simp only [execReport, h, ht]

theorem execReport_running {i : Instr} {s t : State} (h : exec i s = .next t) (ht : t.status = .running) :
    execReport i s = if blocks i s then .blocked else .ok := by
  simp only [execReport, h, ht]

theorem status_not_mem_effectParts (c : Config) (i : Instr) : .status ∉ effectParts c i := by
  cases i with
  | _ => simp [effectParts]

/-- A running core is halted by an instruction only through an error, which changes nothing but status. -/
theorem exec_halted {s t : State} {i : Instr} {e : ErrorRecord} (hs : s.status = .running) (h : exec i s = .next t)
    (ht : t.status = .halted e) : effect s i = .error e ∧ t = s.halt e := by
  have hkeeps := effect_keeps_part (q := .status) (status_not_mem_effectParts s.cfg i)
  rcases exec_next_cases h with ⟨u, hu, rfl⟩ | ⟨u, hu, rfl⟩ | ⟨-, rfl⟩ | ⟨e', he, rfl⟩
  · have hus : u.status = s.status := hkeeps.of_advance hu
    simp [hus, hs] at ht
  · have hus : u.status = s.status := hkeeps.of_set hu
    simp [hus, hs] at ht
  · simp [hs] at ht
  · cases ht
    exact ⟨he, rfl⟩

/-- Every way a step halts a running core: the fetch, the decode error, or an error of the instruction. -/
theorem step_halts_cases {s t : State} {e : ErrorRecord} (hs : s.status = .running) (h : step s = .next t)
    (ht : t.status = .halted e) :
    t = s.halt e ∧ ((0xFFE < s.pc.toNat ∧ e = s.fetchError) ∨
      (∃ op, FetchesUnknown s op ∧ s.cfg.decodeErrorPolicy = .halt ∧ e = s.decodeErrorRecord op) ∨
      ∃ i, FetchesInstr s i ∧ exec i s = .next t ∧ effect s i = .error e) := by
  rcases step_next_cases hs h with ⟨hpc, rfl⟩ | ⟨hop, ⟨-, rfl⟩ | ⟨hp, rfl⟩⟩ | ⟨i, hi, hexec⟩
  · cases ht
    exact ⟨rfl, .inl ⟨hpc, rfl⟩⟩
  · simp [hs] at ht
  · cases ht
    exact ⟨rfl, .inr (.inl ⟨_, hop, hp, rfl⟩)⟩
  · obtain ⟨he, rfl⟩ := exec_halted hs hexec ht
    exact ⟨rfl, .inr (.inr ⟨i, hi, hexec, he⟩)⟩

/-- Settles O10: each of the three ways to halt writes status alone and reports its record. -/
theorem fatalErrorsArePrecise : Obligations.FatalErrorsArePrecise := by
  intro s t e hs h ht
  obtain ⟨rfl, ⟨hpc, rfl⟩ | ⟨op, hop, hp, rfl⟩ | ⟨i, hi, hexec, -⟩⟩ := step_halts_cases hs h ht
  · exact ⟨rfl, stepReport_outside hs hpc⟩
  · exact ⟨rfl, stepReport_of_fetchesUnknown_halt hop hp⟩
  · exact ⟨rfl, (stepReport_of_fetchesInstr hi).trans (execReport_halted hexec rfl)⟩

/-- The address of a failed fetch lies above 0xFFF and is that of one of its two bytes (R103). -/
theorem badFetchAddress_toNat {pc : Word} (h : 0xFFE < pc.toNat) :
    0xFFF < (badFetchAddress pc).toNat ∧ (badFetchAddress pc = pc ∨ badFetchAddress pc = pc + 1#16) := by
  unfold badFetchAddress
  split
  · exact ⟨‹_›, .inl rfl⟩
  · exact ⟨by rw [BitVec.toNat_add, BitVec.toNat_ofNat]; omega, .inr rfl⟩

/-- Settles O11: a failed fetch, a decode error, or an error of the fetched instruction by `effect_error`. -/
theorem everyHaltHasAListedCause : Obligations.EveryHaltHasAListedCause := by
  intro s t e hs h ht
  obtain ⟨-, ⟨hpc, rfl⟩ | ⟨op, hop, hp, rfl⟩ | ⟨i, hi, -, he⟩⟩ := step_halts_cases hs h ht
  · exact ⟨rfl, .inl ⟨rfl, rfl, _, rfl, badFetchAddress_toNat hpc⟩⟩
  · exact ⟨rfl, .inr (.inl ⟨op, hop, hp, rfl, rfl, rfl⟩)⟩
  · obtain ⟨hpc, hopcode, hcause⟩ := effect_error he
    obtain ⟨-, -, hdecode⟩ := id hi
    rw [(encode_of_decode hdecode).1] at hopcode
    exact ⟨hpc, .inr (.inr ⟨i, hi, hopcode, hcause⟩)⟩

/-! ## The timers (R109) -/

theorem effect_dt (s : State) (i : Instr) : (effect s i).Holds fun u => u.dt = dtBeforeDecay (.instr i) s := by
  cases i with
  | ldDt x => exact rfl
  | _ => exact effect_keeps_part (q := .dt) (by simp [effectParts])

theorem effect_st (s : State) (i : Instr) : (effect s i).Holds fun u => u.st = stBeforeDecay (.instr i) s := by
  cases i with
  | ldSt x => exact rfl
  | _ => exact effect_keeps_part (q := .st) (by simp [effectParts])

/-- The timers at the end of a step from what the instruction left in them. -/
theorem stepDecay_timers {s u : State} (hcfg : u.cfg = s.cfg) :
    u.stepDecay.dt = timerAfterStep s u.dt ∧ u.stepDecay.st = timerAfterStep s u.st := by
  rw [State.stepDecay_dt, State.stepDecay_st, hcfg]
  exact ⟨rfl, rfl⟩

/-- Only Fx0A with no key pressed ends in Block (45_keys_timers.md R205). -/
theorem effect_of_blocks {s : State} {i : Instr} (h : blocks i s = true) :
    effect s i = .block ∨ effect s i = .refuse .fx0aOnRelease := by
  cases i with
  | ldK x =>
    have hk : s.lowestKey = none := Option.isNone_iff_eq_none.mp h
    rcases effect_ldK_cases s x with ⟨-, he⟩ | ⟨k, hk', -⟩ | ⟨-, he⟩
    · exact .inr he
    · cases hk.symm.trans hk'
    · exact .inl he
  | _ => exact Bool.noConfusion h

theorem blocks_of_effect {s : State} {i : Instr} (h : effect s i = .block) : blocks i s = true := by
  by_cases hi : ∃ x, i = .ldK x
  · obtain ⟨x, rfl⟩ := hi
    rcases effect_ldK_cases s x with ⟨-, he⟩ | ⟨k, -, he⟩ | ⟨hk, -⟩
    · cases he.symm.trans h
    · cases he.symm.trans h
    · exact Option.isNone_iff_eq_none.mpr hk
  · rcases effect_goes_on_or_error (not_exists.mp hi) s with ⟨u, hu | hu⟩ | ⟨e, hu⟩ <;> cases hu.symm.trans h

theorem execReport_block {s : State} {i : Instr} (hs : s.status = .running) (h : effect s i = .block) :
    execReport i s = .blocked := by
  have hexec : exec i s = .next s := by rw [exec_eq_finish, h]; rfl
  rw [execReport_running hexec hs, if_pos (blocks_of_effect h)]

/-- An instruction that goes on leaves the core running, and is not reported as blocked. -/
theorem exec_goes_on {s t u : State} {i : Instr} (hs : s.status = .running) (h : exec i s = .next t)
    (hu : effect s i = .advance u ∨ effect s i = .set u) : t.status = .running ∧ execReport i s ≠ .blocked := by
  have ht : t.status = .running := by
    cases ht : t.status with
    | running => rfl
    | halted e =>
      rw [(exec_halted hs h ht).1] at hu
      rcases hu with hu | hu <;> cases hu
  refine ⟨ht, ?_⟩
  rw [execReport_running h ht]
  split
  · rcases effect_of_blocks ‹_› with hb | hb <;> rw [hb] at hu <;> rcases hu with hu | hu <;> cases hu
  · exact Report.noConfusion

/-- The timers after an instruction of a running core. -/
theorem exec_timers {s t : State} {i : Instr} (hs : s.status = .running) (h : exec i s = .next t) :
    (execReport i s = .blocked ∨ t.status ≠ .running → t.dt = s.dt ∧ t.st = s.st) ∧
    (execReport i s ≠ .blocked → t.status = .running →
      t.dt = timerAfterStep s (dtBeforeDecay (.instr i) s) ∧ t.st = timerAfterStep s (stBeforeDecay (.instr i) s)) := by
  have hcfg := effect_keeps_part (q := .cfg) (keys_cfg_not_mem_effectParts s.cfg i).2
  rcases exec_next_cases h with ⟨u, hu, rfl⟩ | ⟨u, hu, rfl⟩ | ⟨hb, rfl⟩ | ⟨e, he, rfl⟩
  · obtain ⟨hrunning, hreport⟩ := exec_goes_on hs h (.inl hu)
    refine ⟨fun hor => (hor.elim hreport (· hrunning)).elim, fun _ _ => ?_⟩
    rw [← (effect_dt s i).of_advance hu, ← (effect_st s i).of_advance hu]
    have hucfg : u.cfg = s.cfg := hcfg.of_advance hu
    exact stepDecay_timers (u := u.setPc _) hucfg
  · obtain ⟨hrunning, hreport⟩ := exec_goes_on hs h (.inr hu)
    refine ⟨fun hor => (hor.elim hreport (· hrunning)).elim, fun _ _ => ?_⟩
    rw [← (effect_dt s i).of_set hu, ← (effect_st s i).of_set hu]
    exact stepDecay_timers (hcfg.of_set hu)
  · exact ⟨fun _ => ⟨rfl, rfl⟩, fun hreport => absurd (execReport_block hs hb) hreport⟩
  · exact ⟨fun _ => ⟨rfl, rfl⟩, fun _ hrunning => by cases hrunning⟩

/-- Settles O12: a fatal step writes no timer, a skipped opcode is a step that writes pc alone, and the rest is
`exec_timers`. -/
theorem stepDecaysTimersUnderP1 : Obligations.StepDecaysTimersUnderP1 := by
  intro s t hs h
  dsimp only
  rcases step_next_cases hs h with ⟨-, rfl⟩ | ⟨hop, ⟨hp, rfl⟩ | ⟨-, rfl⟩⟩ | ⟨i, hi, hexec⟩
  · exact ⟨fun _ => ⟨rfl, rfl⟩, fun _ hrunning => by cases hrunning⟩
  · have hreport : stepReport s ≠ .blocked := by
      rw [stepReport_of_fetchesUnknown_skip hop hp]
      exact Report.noConfusion
    have hrunning : (s.setPc (s.pc + 2#16)).stepDecay.status = .running := (State.stepDecay_status _).trans hs
    obtain ⟨-, -, hdecode⟩ := hop
    rw [hdecode]
    exact ⟨fun hor => (hor.elim hreport (· hrunning)).elim, fun _ _ => stepDecay_timers (u := s.setPc _) rfl⟩
  · exact ⟨fun _ => ⟨rfl, rfl⟩, fun _ hrunning => by cases hrunning⟩
  · rw [stepReport_of_fetchesInstr hi]
    obtain ⟨-, -, hdecode⟩ := hi
    rw [hdecode]
    exact exec_timers hs hexec

end Sys2Proof.Machine
end

section
/-!
PROOF. The invariant (`State.Inv`): the state after reset meets it, every instruction's effect keeps it, and so do the
end of a step and the host's operations.
-/

namespace Sys2Proof.Machine

/-! ## Fields the invariant does not look at -/

theorem State.Inv.stepDecay {s : State} (h : s.Inv) : s.stepDecay.Inv := by
  unfold State.stepDecay
  split
  · exact ⟨h.mem_wf, h.pc_le, h.stack_le, h.status_ok⟩
  · exact h

/-- A running core may go to any pc up to 0x10FE. -/
theorem State.Inv.setPc {s : State} (h : s.Inv) (hs : s.status = .running) {a : Word} (ha : a.toNat ≤ 0x10FE) :
    (s.setPc a).Inv :=
  ⟨h.mem_wf, ha, h.stack_le, by simp [State.statusAgrees, hs]⟩

theorem State.Inv.halt {s : State} (h : s.Inv) {e : ErrorRecord} (hpc : e.pc = s.pc) (he : e.legal = true) :
    (s.halt e).Inv :=
  ⟨h.mem_wf, h.pc_le, h.stack_le, by simp [State.statusAgrees, hpc, he]⟩

/-! ## The effect of an instruction -/

theorem Effect.Holds.mono {P Q : State → Prop} {e : Effect} (h : e.Holds P) (hPQ : ∀ u, P u → Q u) : e.Holds Q := by
  cases e with
  | advance u | set u => exact hPQ u h
  | block | error | refuse => trivial

theorem Effect.Holds.and {P Q : State → Prop} {e : Effect} (hP : e.Holds P) (hQ : e.Holds Q) :
    e.Holds fun u => P u ∧ Q u := by
  cases e with
  | advance u | set u => exact ⟨hP, hQ⟩
  | block | error | refuse => trivial

theorem effect_mem_wf {s : State} (h : s.mem.wf = true) (i : Instr) :
    (effect s i).Holds fun u => u.mem.wf = true := by
  cases hi : i.needsExtMem with
  | false =>
    exact (effect_keeps_part (mem_not_mem_effectParts hi s.cfg)).mono fun u (hu : u.mem = s.mem) => hu ▸ h
  | true =>
    cases i with
    | ldB x =>
      refine spanEffect_holds fun hspan => Memory.wf_pokeSpan _ _ _ ?_ h
      exact hspan.resolve_left (by decide)
    | stRegs x =>
      refine spanEffect_holds fun hspan => Memory.wf_pokeSpan _ _ _ ?_ h
      rw [State.regsUpTo_length]
      exact hspan.resolve_left (Nat.succ_ne_zero _)
    | ldRegs x => exact spanEffect_holds fun _ => h
    | _ => exact Bool.noConfusion hi

theorem address_toNat (nnn : Addr) : (address nnn).toNat = nnn.toNat := by
  have := nnn.isLt
  rw [address_eq_ofNat_toNat, BitVec.toNat_ofNat]
  omega

/-- Where an instruction goes from an address that can be fetched (10_state.md R25): Bnnn goes furthest, to
0xFFF + 255. -/
theorem effect_pc_le {s : State} (hpc : s.pc.toNat ≤ 0xFFE) (hstack : ∀ k, (s.slot k).toNat ≤ 0x1000) (i : Instr) :
    (effect s i).Holds fun u => u.pc.toNat ≤ 0x10FE := by
  have hskip : s.skipTarget.toNat ≤ 0x10FE := by
    rw [State.skipTarget, BitVec.toNat_add, BitVec.toNat_ofNat]
    omega
  cases i with
  | seImm | sneImm | seReg | sneReg | skp | sknp =>
    exact skipEffect_holds (P := fun u => u.pc.toNat ≤ 0x10FE) (by omega) hskip _
  | ret => exact effect_ret_holds fun k _ => (hstack k).trans (by decide)
  | call nnn =>
    have := nnn.isLt
    exact effect_call_holds fun _ _ => (address_toNat nnn).trans_le (by omega)
  | jp nnn =>
    have := nnn.isLt
    exact (address_toNat nnn).trans_le (by omega)
  | jpV0 nnn =>
    have := nnn.isLt
    have := (s.reg 0x0#4).isLt
    show (address nnn + wordOfByte (s.reg 0x0#4)).toNat ≤ 0x10FE
    rw [BitVec.toNat_add, address_toNat, wordOfByte, BitVec.toNat_setWidth]
    omega
  | _ =>
    exact (effect_keeps_part (q := .pc) (by simp [effectParts])).mono fun u (hu : u.pc = s.pc) => by rw [hu]; omega

/-- The next address, from one that can be fetched. -/
theorem add_two_toNat_le {pc : Word} (h : pc.toNat ≤ 0xFFE) : (pc + 2#16).toNat ≤ 0x1000 := by
  rw [BitVec.toNat_add, BitVec.toNat_ofNat]
  omega

/-- A CALL pushes at most 0xFFE + 2 (41_control_flow.md R131); no other instruction writes a slot. -/
theorem effect_stack_le {s : State} (hpc : s.pc.toNat ≤ 0xFFE) (hstack : ∀ k, (s.slot k).toNat ≤ 0x1000) (i : Instr) :
    (effect s i).Holds fun u => ∀ k, (u.slot k).toNat ≤ 0x1000 := by
  by_cases hcall : ∃ nnn, i = .call nnn
  · obtain ⟨nnn, rfl⟩ := hcall
    refine effect_call_holds fun j p k => ?_
    rw [State.setPc_slot, State.setStack_set_slot]
    split
    · exact add_two_toNat_le hpc
    · exact hstack k
  · refine (effect_keeps_part (stack_not_mem_effectParts (not_exists.mp hcall) s.cfg)).mono ?_
    intro u (hu : u.stack = s.stack) k
    exact (congrArg (fun w : Vector Word 16 => (w[k.val]'k.isLt).toNat) hu).trans_le (hstack k)

theorem effect_inv {s : State} (h : s.Inv) (hs : s.status = .running) (hpc : s.pc.toNat ≤ 0xFFE) (i : Instr) :
    (effect s i).Holds fun u => u.Inv ∧ u.status = .running := by
  have hstatus := effect_keeps_part (q := .status) (status_not_mem_effectParts s.cfg i)
  refine ((effect_mem_wf h.mem_wf i).and ((effect_pc_le hpc h.stack_le i).and
    ((effect_stack_le hpc h.stack_le i).and hstatus))).mono ?_
  rintro u ⟨hmem, hpcu, hstack, hu⟩
  have hu' : u.status = .running := Eq.trans hu hs
  exact ⟨⟨hmem, hpcu, hstack, by simp [State.statusAgrees, hu']⟩, hu'⟩

/-! ## The step -/

theorem errorCause_legal {s : State} {i : Instr} {e : ErrorRecord} (hopcode : e.opcode = some (encode i))
    (h : ErrorCause s i e) : e.legal = true := by
  rcases h with ⟨hcode, haddr, -⟩ | ⟨hcode, haddr, -⟩ | ⟨hcode, a, -, haddr, -⟩ <;>
    simp [ErrorRecord.legal, hcode, haddr, hopcode]

theorem exec_inv {s t : State} (h : s.Inv) (hs : s.status = .running) (hpc : s.pc.toNat ≤ 0xFFE) {i : Instr}
    (hexec : exec i s = .next t) : t.Inv := by
  have hinv := effect_inv h hs hpc i
  rcases exec_next_cases hexec with ⟨u, hu, rfl⟩ | ⟨u, hu, rfl⟩ | ⟨-, rfl⟩ | ⟨e, he, rfl⟩
  · obtain ⟨huinv, hus⟩ := hinv.of_advance hu
    exact (huinv.setPc hus ((add_two_toNat_le hpc).trans (by decide))).stepDecay
  · exact (hinv.of_set hu).1.stepDecay
  · exact h
  · obtain ⟨hepc, hopcode, hcause⟩ := effect_error he
    exact h.halt hepc (errorCause_legal hopcode hcause)

/-- Settles O58: an instruction keeps the invariant, a skipped opcode goes to pc + 2, and the other errors leave a legal
record. -/
theorem stepKeepsTheInvariant : Obligations.StepKeepsTheInvariant := by
  intro s t h hstep
  cases hs : s.status with
  | halted e =>
    rw [step_halted hs] at hstep
    cases hstep
    exact h
  | running =>
    rcases step_next_cases hs hstep with ⟨-, rfl⟩ | ⟨⟨-, hpc, -⟩, ⟨-, rfl⟩ | ⟨-, rfl⟩⟩ | ⟨i, ⟨-, hpc, -⟩, hexec⟩
    · exact h.halt rfl rfl
    · exact (h.setPc hs ((add_two_toNat_le hpc).trans (by decide))).stepDecay
    · exact h.halt rfl rfl
    · exact exec_inv h hs hpc hexec

/-! ## The host's operations -/

/-- Settles O56: every clause is a closed fact about one state. -/
theorem resetMeetsTheInvariant : Obligations.ResetMeetsTheInvariant := ⟨by decide, by decide, by decide, by decide⟩

theorem fillMemory_wf (c : Config) : (fillMemory c).wf = true := by
  unfold fillMemory
  induction c.memFill with
  | nil => rfl
  | cons cell rest ih =>
    rw [List.foldr_cons]
    split
    · exact Memory.wf_poke _ _ _ (And.right ‹_›) ih
    · exact ih

theorem resetMemory_wf (c : Config) {rom : List Byte} (h : rom.length ≤ 3584) : (resetMemory c rom).wf = true :=
  Memory.wf_pokeSpan _ _ _ (Nat.add_le_add_left h progStart) (fillMemory_wf c)

/-- What createCore needs to give a core, and the core it gives (70_reset_and_hazards.md R260). -/
theorem createCore_ready {c : Config} {rom : Option (List Byte)} {s : State} (h : createCore c rom = .ready s) :
    ∃ bytes, rom = some bytes ∧ bytes.length ≤ 3584 ∧ s = State.fresh c (resetMemory c bytes) := by
  unfold createCore at h
  split at h
  · cases h
  · split at h
    · cases h
    · split at h
      · cases h
      · cases h
        exact ⟨_, rfl, Nat.le_of_not_lt ‹_›, rfl⟩

/-- Settles O57: fill and ROM are writes inside memory, and everything else is as in the reset state. -/
theorem createdCoresMeetTheInvariant : Obligations.CreatedCoresMeetTheInvariant := by
  intro c rom s h
  obtain ⟨bytes, -, hlen, rfl⟩ := createCore_ready h
  exact ⟨resetMemory_wf c hlen, resetMeetsTheInvariant.pc_le, resetMeetsTheInvariant.stack_le, rfl⟩

theorem hostReset_inv {s : State} (h : s.Inv) (rom : Option (List Byte)) : (hostReset rom s).Inv := by
  unfold hostReset
  split
  · have ht := createdCoresMeetTheInvariant _ _ _ ‹_›
    exact ⟨ht.mem_wf, ht.pc_le, ht.stack_le, ht.status_ok⟩
  · exact h
  · exact h

theorem stepWithDraw_inv {s t : State} (h : s.Inv) {rnd : Byte} (hstep : stepWithDraw rnd s = .next t) : t.Inv := by
  unfold stepWithDraw at hstep
  split at hstep
  · next u hu =>
    cases hstep
    have hinv := stepKeepsTheInvariant { s with rndIn := [rnd] } u ⟨h.mem_wf, h.pc_le, h.stack_le, h.status_ok⟩ hu
    exact ⟨hinv.mem_wf, hinv.pc_le, hinv.stack_le, hinv.status_ok⟩
  · cases hstep
  · cases hstep

theorem tick_inv {s : State} (h : s.Inv) : (tick s).Inv := by
  unfold tick
  split
  · exact ⟨h.mem_wf, h.pc_le, h.stack_le, h.status_ok⟩
  · exact h

/-- Settles O59, operation by operation; a step with a draw is a step from a state with other pending bytes. -/
theorem hostOperationsKeepTheInvariant : Obligations.HostOperationsKeepTheInvariant := by
  intro op s t h hop
  cases op with
  | reset rom =>
    cases hop
    exact hostReset_inv h rom
  | step rnd => exact stepWithDraw_inv h hop
  | tick =>
    cases hop
    exact tick_inv h
  | setKey k b =>
    cases hop
    exact ⟨h.mem_wf, h.pc_le, h.stack_le, h.status_ok⟩

/-- Settles O60, by induction on the schedule. -/
theorem everyScheduleMeetsTheInvariant : Obligations.EveryScheduleMeetsTheInvariant := by
  intro s hs
  induction hs with
  | created c rom s h => exact createdCoresMeetTheInvariant c rom s h
  | operated op s t _ h ih => exact hostOperationsKeepTheInvariant op s t ih h

end Sys2Proof.Machine
end

section
/-!
PROOF. The host's operations (40_execution_cycle.md R110, 70_reset_and_hazards.md R260, R261): ticks, creating a core
and resetting one.
-/

namespace Sys2Proof.Machine

/-! ## Ticks -/

theorem Part.Same.trans {p : Part} {s t u : State} (h : p.Same s t) (h' : p.Same t u) : p.Same s u := by
  cases p with
  | regs | stack | keys | mem => exact fun a => (h' a).trans (h a)
  | disp => exact fun px py => (h' px py).trans (h px py)
  | index | pc | sp | dt | st | status | cfg | rndIn | draws => exact Eq.trans h' h

theorem SameBut.trans {parts : List Part} {s t u : State} (h : SameBut parts s t) (h' : SameBut parts t u) :
    SameBut parts s u :=
  fun p hp => (h p hp).trans (h' p hp)

theorem decay_sameBut (s : State) : SameBut [.dt, .st] s s.decay := by
  intro p hp
  cases p with
  | dt | st => simp at hp
  | regs | stack | keys | mem => exact fun _ => rfl
  | disp => exact fun _ _ => rfl
  | index | pc | sp | status | cfg | rndIn | draws => exact rfl

/-- Settles O3: while running a tick is one decay. -/
theorem tickDecaysBothTimers : Obligations.TickDecaysBothTimers := by
  intro s
  refine ⟨fun hs => ?_, fun e he => tick_halted he⟩
  rw [tick_of_running hs]
  exact ⟨decayed_toNat s.dt, decayed_toNat s.st, decay_sameBut s⟩

/-- Settles O4, by induction on the number of ticks: the status is in the frame, so each tick finds the core running. -/
theorem repeatedTicksReachZeroAndStay : Obligations.RepeatedTicksReachZeroAndStay := by
  intro n s hs
  induction n with
  | zero => exact ⟨rfl, rfl, SameBut.refl _ s⟩
  | succ n ih =>
    obtain ⟨hdt, hst, hframe⟩ := ih
    have hstatus : (tick^[n] s).status = s.status := hframe .status (by simp)
    obtain ⟨hdt', hst', hframe'⟩ := (tickDecaysBothTimers (tick^[n] s)).1 (hstatus.trans hs)
    rw [Function.iterate_succ_apply']
    exact ⟨by omega, by omega, hframe.trans hframe'⟩

/-! ## Memory after reset -/

theorem fillMemory_cons {c : Config} {cell : Host.Cell} {rest : List Host.Cell} (h : c.memFill = cell :: rest) :
    fillMemory c =
      if 0x50 ≤ cell.1 ∧ cell.1 ≤ 0xFFF then (fillMemory { c with memFill := rest }).poke cell.1 cell.2
      else fillMemory { c with memFill := rest } := by
  rw [fillMemory, h]
  rfl

theorem fillByte_cons {c : Config} {cell : Host.Cell} {rest : List Host.Cell} (h : c.memFill = cell :: rest) (a : Nat) :
    c.fillByte a = if a = cell.1 then cell.2 else Config.fillByte { c with memFill := rest } a := by
  simp only [Config.fillByte, h]
  by_cases ha : a = cell.1
  · simp [ha]
  · have ha' : (cell.1 == a) = false := beq_false_of_ne (Ne.symm ha)
    rw [List.find?_cons_of_neg (by simp [ha']), if_neg ha]

/-- Fill and font in the memory that reset fills (R260), entry after entry of MEM_FILL. -/
theorem fillMemory_peek (c : Config) {a : Nat} (ha : a ≤ 0xFFF) :
    (fillMemory c).peek a = if a < 0x50 then fontByte a else c.fillByte a := by
  induction hfill : c.memFill generalizing c with
  | nil => simp only [fillMemory, Config.fillByte, hfill]; rfl
  | cons cell rest ih =>
    have hrest := ih { c with memFill := rest } rfl
    rw [fillMemory_cons hfill, fillByte_cons hfill]
    split
    · rw [Memory.peek_poke _ _ _ _ (fillMemory_wf _), hrest]
      by_cases hcell : a = cell.1
      · rw [if_pos hcell, if_pos hcell, if_neg (by omega)]
      · rw [if_neg hcell, if_neg hcell]
    · rw [hrest]
      by_cases hfont : a < 0x50
      · rw [if_pos hfont, if_pos hfont]
      · rw [if_neg hfont, if_neg hfont, if_neg (by omega)]

theorem resetMemory_peek (c : Config) {rom : List Byte} (hrom : rom.length ≤ 3584) {a : Nat} (ha : a ≤ 0xFFF) :
    (resetMemory c rom).peek a =
      if a < 0x50 then fontByte a
      else if 0x200 ≤ a ∧ a < 0x200 + rom.length then rom.getD (a - 0x200) 0x00#8
      else c.fillByte a := by
  have hspan : progStart + rom.length ≤ 0x1000 := Nat.add_le_add_left hrom progStart
  rw [resetMemory, Memory.peek_pokeSpan _ _ _ _ hspan (fillMemory_wf c), fillMemory_peek c ha, progStart]
  by_cases hfont : a < 0x50
  · rw [if_pos hfont, if_pos hfont, if_neg (by omega)]
  · rw [if_neg hfont, if_neg hfont]

/-- The 80 bytes of the font are the glyphs one after the other (20_memory.md R58). -/
theorem fontByte_eq_flatten : ∀ a, a < 0x50 → fontByte a = fontGlyphs.flatten.getD a 0x00#8 := by
  decide

/-! ## Creating a core -/

theorem createCore_none {c : Config} (hP5 : c.fx0aOnRelease = false) : createCore c none = .loadError := by
  simp [createCore, hP5]

theorem createCore_long {c : Config} (hP5 : c.fx0aOnRelease = false) {rom : List Byte} (h : 3584 < rom.length) :
    createCore c (some rom) = .loadError := by
  simp [createCore, hP5, maxRom, h]

theorem createCore_fits {c : Config} (hP5 : c.fx0aOnRelease = false) {rom : List Byte} (h : rom.length ≤ 3584) :
    createCore c (some rom) = .ready (State.fresh c (resetMemory c rom)) := by
  simp [createCore, hP5, maxRom, Nat.not_lt.mpr h]

theorem fresh_reg (c : Config) (m : Memory) (r : Nibble) : (State.fresh c m).reg r = 0x00#8 :=
  Vector.getElem_replicate ..

theorem fresh_slot (c : Config) (m : Memory) (k : Fin 16) : (State.fresh c m).slot k = 0x0000#16 :=
  Vector.getElem_replicate ..

theorem fresh_keyDown (c : Config) (m : Memory) (k : Nibble) : (State.fresh c m).keyDown k = false :=
  Vector.getElem_replicate ..

/-- Settles O1: memory by `resetMemory_peek`, everything else as `State.fresh` has it. -/
theorem createLoadsFontFillAndRom : Obligations.CreateLoadsFontFillAndRom := by
  intro c hP5
  refine ⟨fun rom hrom => ?_, fun rom hrom => createCore_long hP5 hrom, createCore_none hP5⟩
  refine ⟨_, createCore_fits hP5 hrom, fun a ha => ?_, fresh_reg _ _, rfl, rfl, rfl, fresh_slot _ _,
    Display.pixel_clear, fresh_keyDown _ _, rfl, rfl, rfl, rfl⟩
  refine (resetMemory_peek c hrom ha).trans ?_
  by_cases hfont : a < 0x50
  · rw [if_pos hfont, if_pos hfont]
    exact fontByte_eq_flatten a hfont
  · rw [if_neg hfont, if_neg hfont]

/-! ## Resetting a core -/

theorem hostReset_loadError {rom : Option (List Byte)} {s : State} (h : createCore s.cfg rom = .loadError) :
    hostReset rom s = s ∧ (HostOp.reset rom).report s = .loadError := by
  simp only [hostReset, HostOp.report, h, and_self]

theorem hostReset_ready {rom : Option (List Byte)} {s t : State} (h : createCore s.cfg rom = .ready t) :
    hostReset rom s = { t with rndIn := s.rndIn, draws := s.draws } ∧ (HostOp.reset rom).report s = .ok := by
  simp only [hostReset, HostOp.report, h, and_self]

/-- Settles O2: either LoadError, or the fresh core with the host's draws put back. -/
theorem hostResetIsFreshOrLeavesStateUnmodified : Obligations.HostResetIsFreshOrLeavesStateUnmodified := by
  intro s hP5
  refine ⟨hostReset_loadError (createCore_none hP5), fun rom hrom => hostReset_loadError (createCore_long hP5 hrom),
    fun rom hrom => ?_⟩
  obtain ⟨hreset, hreport⟩ := hostReset_ready (createCore_fits hP5 hrom)
  rw [hreset]
  exact ⟨hreport, rfl, rfl, rfl, createCore_fits hP5 hrom⟩

/-- Settles O39: both refusals look at P5 first. -/
theorem keyWaitOnReleaseIsRefused : Obligations.KeyWaitOnReleaseIsRefused := by
  refine ⟨fun c rom hP5 => if_pos hP5, fun s x hP5 => ?_⟩
  rw [exec_eq_finish, effect_ldK_refused hP5]
  rfl

end Sys2Proof.Machine
end

section
/-!
PROOF. The instructions that write a register and its flag, the index or a draw (42_alu.md R158–R162, 43_index_random.md
R181, R182): each is one update of the state and Advance, and its numbers are those of the rule.
-/

namespace Sys2Proof.Machine

/-! ## Advance and Set -/

theorem SameBut.mono {parts parts' : List Part} {s t : State} (h : SameBut parts s t) (hsub : parts ⊆ parts') :
    SameBut parts' s t :=
  fun p hp => h p fun hmem => hp (hsub hmem)

theorem exec_of_advance {s u : State} {i : Instr} (h : effect s i = .advance u) :
    exec i s = .next (u.setPc (s.pc + 2#16)).stepDecay := by
  rw [exec_eq_finish, h]
  rfl

theorem exec_of_set {s u : State} {i : Instr} (h : effect s i = .set u) : exec i s = .next u.stepDecay := by
  rw [exec_eq_finish, h]
  rfl

theorem exec_of_error {s : State} {i : Instr} {e : ErrorRecord} (h : effect s i = .error e) :
    exec i s = .next (s.halt e) := by
  rw [exec_eq_finish, h]
  rfl

/-- The frame of an instruction that Advances. -/
theorem sameBut_of_advance {s u : State} {i : Instr} (h : effect s i = .advance u) :
    SameBut (effectParts s.cfg i ++ [.pc, .dt, .st]) s (u.setPc (s.pc + 2#16)).stepDecay :=
  (((effect_sameBut s i).of_advance h).setPc _).stepDecay.mono (by simp)

/-- The frame of an instruction that writes pc itself. -/
theorem sameBut_of_set {s u : State} {i : Instr} (h : effect s i = .set u) :
    SameBut (effectParts s.cfg i ++ [.dt, .st]) s u.stepDecay :=
  ((effect_sameBut s i).of_set h).stepDecay

/-! ## A result and its flag -/

/-- Everything an instruction does that writes a result and its flag, and Advances. -/
theorem advance_setRegFlag_wroteRegAndFlag {s : State} {i : Instr} {x : Nibble} {r f : Byte}
    (h : effect s i = .advance (s.setRegFlag x r f)) (hparts : effectParts s.cfg i = [.regs]) :
    ∃ t, exec i s = .next t ∧ WroteRegAndFlag s t x r f := by
  refine ⟨_, exec_of_advance h, ?_, fun hx => ?_, fun q hq => ?_, advanced_setPc_stepDecay rfl rfl rfl,
    (sameBut_of_advance h).mono (by simp [hparts])⟩
  · rw [State.stepDecay_reg, State.setPc_reg, State.setRegFlag_reg]
    exact if_pos rfl
  · rw [State.stepDecay_reg, State.setPc_reg, State.setRegFlag_reg]
    exact (if_neg hx).trans (if_pos rfl)
  · obtain ⟨hqx, hqF⟩ : q ≠ x ∧ q ≠ vF := by simpa [vF] using hq
    rw [State.stepDecay_reg, State.setPc_reg, State.setRegFlag_reg, if_neg hqF, if_neg hqx]

theorem flag_decide (p : Prop) [Decidable p] : flag (decide p) = if p then 0x01#8 else 0x00#8 := by
  by_cases h : p
  · rw [if_pos h, decide_eq_true h]; rfl
  · rw [if_neg h, decide_eq_false h]; rfl

/-- Settles O18: the byte sum is the sum modulo 256, and its carry is the flag. -/
theorem addRegistersWithCarry : Obligations.AddRegistersWithCarry := by
  intro s x y
  rw [← byte_add_eq_ofNat_mod, ← flag_decide]
  exact advance_setRegFlag_wroteRegAndFlag rfl rfl

/-- The difference of two bytes is their difference as numbers modulo 256 (R159). -/
theorem byte_sub_eq_ofNat_mod (a b : Byte) : a - b = BitVec.ofNat 8 ((a.toNat + 256 - b.toNat) % 256) := by
  have := b.isLt
  apply BitVec.eq_of_toNat_eq
  rw [BitVec.toNat_sub, BitVec.toNat_ofNat]
  omega

/-- Settles O19: both differences are those modulo 256, and the flags compare the operands. -/
theorem subtractRegistersWithNoBorrowFlag : Obligations.SubtractRegistersWithNoBorrowFlag := by
  intro s x y
  rw [← byte_sub_eq_ofNat_mod, ← byte_sub_eq_ofNat_mod, ← flag_decide, ← flag_decide]
  exact ⟨advance_setRegFlag_wroteRegAndFlag rfl rfl, advance_setRegFlag_wroteRegAndFlag rfl rfl⟩

theorem byte_ushiftRight_one (b : Byte) : b >>> 1 = BitVec.ofNat 8 (b.toNat / 2) :=
  BitVec.eq_of_toNat_eq (by simp [Nat.shiftRight_eq_div_pow]; omega)

theorem byte_shiftLeft_one (b : Byte) : b <<< 1 = BitVec.ofNat 8 (b.toNat * 2 % 256) :=
  BitVec.eq_of_toNat_eq (by simp [Nat.shiftLeft_eq])

theorem shiftedOutRight_eq (b : Byte) : shiftedOutRight b = BitVec.ofNat 8 (b.toNat % 2) :=
  BitVec.eq_of_toNat_eq (by simp [shiftedOutRight, Nat.and_one_is_mod]; omega)

theorem shiftedOutLeft_eq (b : Byte) : shiftedOutLeft b = BitVec.ofNat 8 (b.toNat / 128) :=
  BitVec.eq_of_toNat_eq (by simp [shiftedOutLeft, Nat.and_one_is_mod, Nat.shiftRight_eq_div_pow]; omega)

/-- Settles O20: the shifts as division and multiplication of the source's value. -/
theorem shiftsMoveOneBitOut : Obligations.ShiftsMoveOneBitOut := by
  intro s x y
  show (∃ t, _ ∧ WroteRegAndFlag s t x (BitVec.ofNat 8 ((s.shiftSource x y).toNat / 2)) _) ∧ _
  rw [← byte_ushiftRight_one, ← byte_shiftLeft_one, ← shiftedOutRight_eq, ← shiftedOutLeft_eq]
  exact ⟨advance_setRegFlag_wroteRegAndFlag rfl rfl, advance_setRegFlag_wroteRegAndFlag rfl rfl⟩

/-! ## The index register (R182) -/

theorem word_add_wordOfByte (i : Word) (b : Byte) :
    i + wordOfByte b = BitVec.ofNat 16 ((i.toNat + b.toNat) % 65536) := by
  have := b.isLt
  apply BitVec.eq_of_toNat_eq
  rw [BitVec.toNat_add, wordOfByte, BitVec.toNat_setWidth, BitVec.toNat_ofNat]
  omega

/-- Settles O22: with P4 a write of I and of VF, without it a write of I alone. -/
theorem addToIndex : Obligations.AddToIndex := by
  intro s x
  rw [← word_add_wordOfByte, ← flag_decide]
  by_cases hP4 : s.cfg.fx1eSetsVf = true
  · refine ⟨_, exec_of_advance (effect_addI_flag hP4 x), State.stepDecay_i _, fun _ => ?_, ?_,
      advanced_setPc_stepDecay rfl rfl rfl, sameBut_of_advance (effect_addI_flag hP4 x)⟩
    · rw [State.stepDecay_reg, State.setPc_reg]
      exact State.setReg_reg_same ..
    · rw [if_pos hP4]
      intro r hr
      rw [State.stepDecay_reg, State.setPc_reg, State.setReg_regsSameBut (s.setI _) vF _ r hr, State.setI_reg]
  · refine ⟨_, exec_of_advance (effect_addI_plain hP4 x), State.stepDecay_i _, fun h => absurd h hP4, ?_,
      advanced_setPc_stepDecay rfl rfl rfl, sameBut_of_advance (effect_addI_plain hP4 x)⟩
    rw [if_neg hP4]
    intro r _
    rw [State.stepDecay_reg, State.setPc_reg, State.setI_reg]

/-! ## The random byte (R181) -/

theorem State.draw_cons {s : State} {r : Byte} {rest : List Byte} (h : s.rndIn = r :: rest) : s.draw = r := by
  rw [State.draw, h]

theorem State.draw_nil {s : State} (h : s.rndIn = []) : s.draw = Config.freeDraw s.draws := by
  rw [State.draw, h]

/-- Settles O24: the draw is the first pending byte, or the free value. -/
theorem randomByteIsAFreeDrawMasked : Obligations.RandomByteIsAFreeDrawMasked := by
  intro s x nn
  have hreg : ((s.setReg x (s.draw &&& nn)).dropDraw.setPc (s.pc + 2#16)).stepDecay.reg x = s.draw &&& nn := by
    rw [State.stepDecay_reg, State.setPc_reg, State.dropDraw_reg, State.setReg_reg_same]
  refine ⟨_, exec_of_advance (i := .rnd x nn) rfl, fun r rest hr => ?_, fun hnil => ?_, State.stepDecay_draws _,
    fun r hr => ?_, advanced_setPc_stepDecay rfl rfl rfl,
    (sameBut_of_advance (i := .rnd x nn) rfl).mono (by simp [effectParts])⟩
  · rw [hreg, State.draw_cons hr]
    exact ⟨rfl, by simp [hr]⟩
  · rw [hreg, State.draw_nil hnil]
    exact ⟨rfl, by simp [hnil]⟩
  · rw [State.stepDecay_reg, State.setPc_reg, State.dropDraw_reg, State.setReg_regsSameBut s x _ r hr]

end Sys2Proof.Machine
end

section
/-!
PROOF. Control transfer (41_control_flow.md R130, R131, R137), the keys and the timers (45_keys_timers.md).
-/

namespace Sys2Proof.Machine

/-! ## Jump with an offset, key skips -/

theorem exec_jpV0 (nnn : Addr) (s : State) : exec (.jpV0 nnn) s = .next (s.setPc (s.jumpV0Target nnn)).stepDecay := rfl

theorem jumpV0Target_eq (s : State) (nnn : Addr) :
    s.jumpV0Target nnn = BitVec.ofNat 16 (nnn.toNat + (s.reg 0x0#4).toNat) := by
  have := nnn.isLt
  have := (s.reg 0x0#4).isLt
  apply BitVec.eq_of_toNat_eq
  rw [State.jumpV0Target, word_add_wordOfByte, address_toNat, BitVec.toNat_ofNat, BitVec.toNat_ofNat]
  omega

/-- Settles O27: a write of pc, by a target that needs no reduction. -/
theorem jumpWithOffsetAddsV0 : Obligations.JumpWithOffsetAddsV0 := by
  intro s nnn
  rw [exec_jpV0, jumpV0Target_eq]
  exact ⟨_, rfl, wrotePc_setPc_stepDecay s _⟩

theorem lowNibble_eq_ofNat_mod (b : Byte) : lowNibble b = BitVec.ofNat 4 (b.toNat % 16) :=
  BitVec.eq_of_toNat_eq (by simp [lowNibble])

theorem exec_skp (x : Nibble) (s : State) : exec (.skp x) s = skipIf s (s.keyDown (lowNibble (s.reg x))) := rfl

theorem exec_sknp (x : Nibble) (s : State) : exec (.sknp x) s = skipIf s (!s.keyDown (lowNibble (s.reg x))) := rfl

/-- Settles O36: both are conditional skips on the key of the low nibble. -/
theorem skipsTestAKey : Obligations.SkipsTestAKey := by
  intro s x
  rw [exec_skp, exec_sknp, lowNibble_eq_ofNat_mod]
  exact ⟨skipIf_skipped s Iff.rfl, skipIf_skipped s (by simp)⟩

/-! ## CALL and RET -/

/-- The opcode of format A as a number (30_encoding.md R74). -/
theorem formatA_eq_ofNat (c : Nibble) (nnn : Addr) :
    formatA c nnn = BitVec.ofNat 16 (c.toNat * 0x1000 + nnn.toNat) := by
  rw [← formatA_toNat, BitVec.ofNat_toNat, BitVec.setWidth_eq]

/-- Settles O28, with room on the stack and on a full one. -/
theorem callPushesTheNextAddress : Obligations.CallPushesTheNextAddress := by
  intro s nnn
  refine ⟨fun hroom => ?_, fun hfull => ?_⟩
  · refine ⟨_, exec_of_set (effect_call_room hroom nnn), ?_, ?_, fun k => ?_, timersStepped_stepDecay rfl rfl rfl,
      (sameBut_of_set (effect_call_room hroom nnn)).mono (by simp [effectParts])⟩
    · rw [State.stepDecay_pc, State.setPc_pc, address_eq_ofNat_toNat]
    · rw [State.stepDecay_sp]
      rfl
    · rw [State.stepDecay_slot, State.setPc_slot, State.setStack_set_slot]
  · rw [exec_of_error (effect_call_full (by omega) nnn), State.errorRecord, encode, formatA_eq_ofNat]
    rfl

/-- Settles O29, with an entry and on an empty stack. -/
theorem returnPopsIntoPc : Obligations.ReturnPopsIntoPc := by
  intro s
  refine ⟨fun k hk => ?_, fun hempty => ?_⟩
  · have hslot : (⟨s.sp.val - 1, by omega⟩ : Fin 16) = k := Fin.ext (by simp [hk])
    refine ⟨_, exec_of_set (effect_ret_entry (by omega)), ?_, ?_, timersStepped_stepDecay rfl rfl rfl,
      sameBut_of_set (effect_ret_entry (by omega))⟩
    · rw [State.stepDecay_pc, State.setPc_pc, hslot]
    · rw [State.stepDecay_sp]
      exact congrArg Fin.val hslot
  · rw [exec_of_error (effect_ret_empty hempty)]
    rfl

/-- Settles O30: the RET pops the slot the CALL wrote. -/
theorem returnUndoesCall : Obligations.ReturnUndoesCall := by
  intro s t nnn hroom h
  obtain ⟨t', ht', -, hsp, hslots, -, hframe⟩ := (callPushesTheNextAddress s nnn).1 hroom
  obtain rfl : t' = t := Host.Outcome.next.inj (ht'.symm.trans h)
  obtain ⟨u, hu, hpc, husp, -, huframe⟩ := (returnPopsIntoPc t').1 ⟨s.sp.val, hroom⟩ hsp
  have hustack : ∀ k, u.slot k = t'.slot k := huframe .stack (by simp)
  refine ⟨u, hu, ?_, Fin.ext husp, fun k hk => ?_, ?_⟩
  · rw [hpc, hslots, if_pos rfl]
  · rw [hustack, hslots, if_neg (by omega)]
  · intro p hp
    by_cases hpsp : p = .sp
    · subst hpsp
      exact Fin.ext husp
    · have hp' : p ∉ [Part.pc, .sp, .stack, .dt, .st] := by simpa [hpsp] using hp
      exact hframe.trans (huframe.mono (by simp)) p hp'

/-! ## The key wait (R203–R205) -/

theorem lowestKey_of_lowest {s : State} {k : Nibble} (hk : s.keyDown k = true)
    (hlow : ∀ j : Nibble, j.toNat < k.toNat → s.keyDown j = false) : s.lowestKey = some k := by
  cases hj : s.lowestKey with
  | none => rw [s.lowestKey_none.mp hj k] at hk; cases hk
  | some j =>
    obtain ⟨hdown, hjlow⟩ := s.lowestKey_some j hj
    rcases Nat.lt_trichotomy j.toNat k.toNat with hlt | heq | hgt
    · rw [hlow j hlt] at hdown; cases hdown
    · rw [BitVec.eq_of_toNat_eq heq]
    · rw [hjlow k hgt] at hk; cases hk

theorem exec_ldK_key {s : State} (hP5 : s.cfg.fx0aOnRelease = false) {k : Nibble} (hk : s.lowestKey = some k)
    (x : Nibble) : exec (.ldK x) s = writeReg s x (BitVec.ofNat 8 k.toNat) := by
  rw [exec_of_advance (effect_ldK_key (by simp [hP5]) hk x), writeReg_eq, BitVec.ofNat_toNat]

theorem exec_ldK_none {s : State} (hP5 : s.cfg.fx0aOnRelease = false) (hk : ∀ k, s.keyDown k = false) (x : Nibble) :
    exec (.ldK x) s = .next s := by
  rw [exec_eq_finish, effect_ldK_none (by simp [hP5]) (s.lowestKey_none.mpr hk) x]
  rfl

/-- Settles O37: the key found is the lowest, and with none found the effect is Block. -/
theorem keyWaitStoresTheLowestKey : Obligations.KeyWaitStoresTheLowestKey := by
  intro s x hP5
  refine ⟨fun k hk hlow => ?_, fun hnone => exec_ldK_none hP5 hnone x⟩
  rw [exec_ldK_key hP5 (lowestKey_of_lowest hk hlow)]
  exact writeReg_wroteReg s x _

/-- A blocked step, and its report (R205). -/
theorem step_blocked {s : State} {x : Nibble} (hP5 : s.cfg.fx0aOnRelease = false) (h : FetchesInstr s (.ldK x))
    (hnone : ∀ k, s.keyDown k = false) : step s = .next s ∧ stepReport s = .blocked := by
  refine ⟨(step_of_fetchesInstr h).trans (exec_ldK_none hP5 hnone x), ?_⟩
  rw [stepReport_of_fetchesInstr h]
  exact execReport_block h.1 (effect_ldK_none (by simp [hP5]) (s.lowestKey_none.mpr hnone) x)

/-- Settles O38: a tick changes nothing the wait looks at, and after `setKey` the one key set is the lowest. -/
theorem blockedStepRepeatsUntilAKeyIsSet : Obligations.BlockedStepRepeatsUntilAKeyIsSet := by
  intro s x hP5 h hnone
  obtain ⟨hstep, hreport⟩ := step_blocked hP5 h hnone
  have hticked : tick s = s.decay := tick_of_running h.1
  obtain ⟨hstep', hreport'⟩ := step_blocked (s := s.decay) hP5 h hnone
  refine ⟨hstep, hreport, by rw [hticked, hstep'], by rw [hticked, hreport'], fun k => ?_⟩
  have hlowest : (setKey k true s).lowestKey = some k := by
    refine lowestKey_of_lowest (setKey_keyDown_same s k true) fun j hj => ?_
    rw [setKey_keyDown_of_ne s true (fun hjk => by simp [hjk] at hj), hnone]
  have hfetch : FetchesInstr (setKey k true s) (.ldK x) := h
  obtain ⟨t, ht, hreg, -, ⟨hpc, -⟩, -⟩ := writeReg_wroteReg (setKey k true s) x (BitVec.ofNat 8 k.toNat)
  exact ⟨t, by rw [step_of_fetchesInstr hfetch, exec_ldK_key (s := setKey k true s) hP5 hlowest, ht], hreg, hpc⟩

/-! ## Reading and writing the timers (R202, R206, R207) -/

theorem soundActive_iff (s : State) : soundActive s = true ↔ 0 < s.st.toNat := decide_eq_true_iff

/-- Settles O40: one write each, then the decay at the end of the step. -/
theorem timerReadsAndWrites : Obligations.TimerReadsAndWrites := by
  intro s x
  refine ⟨writeReg_wroteReg s x s.dt, ?_, ?_⟩
  · obtain ⟨hdt, hst⟩ := stepDecay_timers (s := s) (u := (s.setDt (s.reg x)).setPc (s.pc + 2#16)) rfl
    exact ⟨_, exec_of_advance (i := .ldDt x) rfl, hdt, hst, State.stepDecay_pc _,
      (sameBut_of_advance (i := .ldDt x) rfl).mono (by simp [effectParts])⟩
  · obtain ⟨hdt, hst⟩ := stepDecay_timers (s := s) (u := (s.setSt (s.reg x)).setPc (s.pc + 2#16)) rfl
    refine ⟨_, exec_of_advance (i := .ldSt x) rfl, hst, hdt, ?_, State.stepDecay_pc _,
      (sameBut_of_advance (i := .ldSt x) rfl).mono (by simp [effectParts])⟩
    rw [soundActive_iff, hst]
    rfl

end Sys2Proof.Machine
end

section
/-!
PROOF. The instructions that access memory from I on: Dxyn (44_display.md R191), Fx33, Fx55 and Fx65 (46_ext_memory.md
R220–R222). Inside memory each is one update and Advance; outside, the error before any write.
-/

namespace Sys2Proof.Machine

/-! ## Outside memory -/

/-- The opcode of formats XYN and X as a number (30_encoding.md R74). -/
theorem formatXYN_eq_ofNat (c x y n : Nibble) :
    formatXYN c x y n = BitVec.ofNat 16 (c.toNat * 0x1000 + x.toNat * 256 + y.toNat * 16 + n.toNat) := by
  rw [← formatXYN_toNat, BitVec.ofNat_toNat, BitVec.setWidth_eq]

theorem formatX_eq_ofNat (c x : Nibble) (f : Byte) :
    formatX c x f = BitVec.ofNat 16 (c.toNat * 0x1000 + f.toNat + x.toNat * 256) := by
  rw [Nat.add_right_comm, ← formatX_toNat, BitVec.ofNat_toNat, BitVec.setWidth_eq]

/-- An instruction whose bytes leave memory halts the core and changes nothing else (20_memory.md R54). -/
theorem exec_span_outside {s u : State} {i : Instr} {n : Nat} {op : Word} (heffect : effect s i = spanEffect s i n u)
    (hn : ¬ s.SpanInside n) (hop : encode i = op) :
    exec i s = .next (s.haltedAt .addressOutOfBounds op
      (some (BitVec.ofNat 16 (if 0xFFF < s.i.toNat then s.i.toNat else 0x1000)))) := by
  rw [exec_of_error (heffect.trans (spanEffect_outside hn i u)), State.errorRecord, hop]
  rfl

/-! ## Drawing -/

/-- The sprite's pixels, from the state before the draw (44_display.md R191). -/
def DrawCovers (s : State) (x y n : Nibble) : Fin 64 → Fin 32 → Prop :=
  SpriteCovers ((s.reg x).toNat % 64) ((s.reg y).toNat % 32) (s.bytesFromI n.toNat)

theorem blit_inverts (s : State) (x y n : Nibble) :
    Blit.Inverts ⟨s.disp, false⟩ (s.blit x y n) (DrawCovers s x y n) := by
  have := n.isLt
  exact Blit.rows_inverts _ _ _ _ (by rw [State.bytesFromI_length]; omega)

/-- The two values a flag takes. -/
theorem flag_of_iff {c : Bool} {p : Prop} (h : c = true ↔ p) :
    (p → flag c = 0x01#8) ∧ (¬ p → flag c = 0x00#8) := by
  cases c with
  | true => exact ⟨fun _ => rfl, fun hp => absurd (h.mp rfl) hp⟩
  | false => exact ⟨fun hp => absurd (h.mpr hp) Bool.false_ne_true, fun _ => rfl⟩

/-- `t` is `s` after a draw over the pixels of `P` and Advance. -/
structure Drawn (s t : State) (P : Fin 64 → Fin 32 → Prop) : Prop where
  inside : ∀ px py, P px py → t.disp.pixel px py = !s.disp.pixel px py
  outside : ∀ px py, ¬ P px py → t.disp.pixel px py = s.disp.pixel px py
  hit : (∃ px py, P px py ∧ s.disp.pixel px py = true) → t.reg 0xF#4 = 0x01#8
  miss : (¬ ∃ px py, P px py ∧ s.disp.pixel px py = true) → t.reg 0xF#4 = 0x00#8
  regs : RegsSameBut [0xF#4] s t
  advanced : Advanced s t
  frame : SameBut [.disp, .regs, .pc, .dt, .st] s t

/-- The blit inverts the sprite's pixels, and its collision is the flag. -/
theorem exec_drw_drawn {s : State} {x y n : Nibble} (hspan : s.SpanInside n.toNat) :
    ∃ t, exec (.drw x y n) s = .next t ∧ Drawn s t (DrawCovers s x y n) := by
  obtain ⟨hinside, houtside, hcollides⟩ := blit_inverts s x y n
  obtain ⟨hhit, hmiss⟩ := flag_of_iff (hcollides.trans (or_iff_right Bool.false_ne_true))
  have heffect : effect s (.drw x y n) = .advance _ := spanEffect_inside hspan _ _
  refine ⟨_, exec_of_advance heffect, ?_⟩
  generalize hu : (s.setDisp (s.blit x y n).disp).setReg vF (flag (s.blit x y n).collision) = u
  have hdisp : (u.setPc (s.pc + 2#16)).stepDecay.disp = (s.blit x y n).disp := by
    rw [State.stepDecay_disp, ← hu]; rfl
  have hflag : (u.setPc (s.pc + 2#16)).stepDecay.reg 0xF#4 = flag (s.blit x y n).collision := by
    rw [State.stepDecay_reg, State.setPc_reg, ← hu]
    exact State.setReg_reg_same ..
  subst hu
  refine ⟨by rwa [hdisp], by rwa [hdisp], fun h => hflag.trans (hhit h), fun h => hflag.trans (hmiss h), fun r hr => ?_,
    advanced_setPc_stepDecay rfl rfl rfl, sameBut_of_advance heffect⟩
  rw [State.stepDecay_reg, State.setPc_reg, State.setReg_regsSameBut (s.setDisp _) vF _ r hr, State.setDisp_reg]

/-- Settles O33: inside memory by `exec_drw_drawn`, outside by the bounds check. -/
theorem drawInvertsTheSpritesPixels : Obligations.DrawInvertsTheSpritesPixels := by
  intro s x y n
  refine ⟨fun hspan => ?_, fun hspan => exec_span_outside rfl hspan (formatXYN_eq_ofNat 0xD#4 x y n)⟩
  obtain ⟨t, ht, hdrawn⟩ := exec_drw_drawn hspan
  exact ⟨t, ht, hdrawn.inside, hdrawn.outside, hdrawn.hit, hdrawn.miss, hdrawn.regs, hdrawn.advanced, hdrawn.frame⟩

/-- A draw over no F register covers the same pixels again afterwards. -/
theorem Drawn.covers {s t : State} {P : Fin 64 → Fin 32 → Prop} (h : Drawn s t P) {x y : Nibble} (hx : x ≠ 0xF#4)
    (hy : y ≠ 0xF#4) (n : Nibble) : DrawCovers t x y n = DrawCovers s x y n := by
  have hi : t.i = s.i := h.frame .index (by simp)
  have hmem : ∀ a, t.mem.peek a = s.mem.peek a := h.frame .mem (by simp)
  simp only [DrawCovers, State.bytesFromI, h.regs x (by simpa using hx), h.regs y (by simpa using hy), hi, hmem]

/-- A second draw over the same pixels restores the display. -/
theorem Drawn.restores {s t u : State} {P : Fin 64 → Fin 32 → Prop} (h : Drawn s t P) (h' : Drawn t u P) (px : Fin 64)
    (py : Fin 32) : u.disp.pixel px py = s.disp.pixel px py := by
  by_cases hP : P px py
  · rw [h'.inside px py hP, h.inside px py hP, Bool.not_not]
  · rw [h'.outside px py hP, h.outside px py hP]

/-- The pixels a second draw hits are those that the first turned on. -/
theorem Drawn.hit_iff {s t : State} {P : Fin 64 → Fin 32 → Prop} (h : Drawn s t P) :
    (∃ px py, P px py ∧ t.disp.pixel px py = true) ↔
      ∃ px py, s.disp.pixel px py = false ∧ t.disp.pixel px py = true := by
  constructor
  · rintro ⟨px, py, hP, ht⟩
    exact ⟨px, py, by simpa [ht] using h.inside px py hP, ht⟩
  · rintro ⟨px, py, hs, ht⟩
    by_cases hP : P px py
    · exact ⟨px, py, hP, ht⟩
    · rw [h.outside px py hP, hs] at ht
      cases ht

/-- Settles O34: with x and y other than F, both draws cover the same pixels. -/
theorem drawingTwiceRestoresTheDisplay : Obligations.DrawingTwiceRestoresTheDisplay := by
  intro s t u x y n hx hy hspan hst htu
  obtain ⟨t', ht', hdrawn⟩ := exec_drw_drawn (x := x) (y := y) hspan
  obtain rfl : t' = t := Host.Outcome.next.inj (ht'.symm.trans hst)
  have hi : t'.i = s.i := hdrawn.frame .index (by simp)
  obtain ⟨u', hu', hdrawn'⟩ := exec_drw_drawn (s := t') (x := x) (y := y) (n := n)
    (by rw [State.SpanInside, hi]; exact hspan)
  obtain rfl : u' = u := Host.Outcome.next.inj (hu'.symm.trans htu)
  rw [hdrawn.covers hx hy n] at hdrawn'
  refine ⟨hdrawn.restores hdrawn', ?_⟩
  rw [← hdrawn.hit_iff]
  refine ⟨fun hflag => ?_, hdrawn'.hit⟩
  by_contra hno
  rw [hdrawn'.miss hno] at hflag
  cases hflag

/-! ## Memory and register transfer -/

theorem indexAfterTransfer_eq (s : State) (x : Nibble) :
    s.indexAfterTransfer x =
      if s.cfg.loadStoreIncrementsI then BitVec.ofNat 16 ((s.i.toNat + x.toNat + 1) % 65536) else s.i := by
  have hpast : s.indexPast x = BitVec.ofNat 16 ((s.i.toNat + x.toNat + 1) % 65536) := by
    have := x.isLt
    apply BitVec.eq_of_toNat_eq
    simp [State.indexPast]
  rw [State.indexAfterTransfer, hpast]

/-- Memory after the `bytes` are written from I on. -/
theorem peek_pokeSpan_fromI {s : State} (hwf : s.mem.wf = true) {bytes : List Byte}
    (h : s.i.toNat + bytes.length ≤ 0x1000) :
    (∀ k, k < bytes.length → (s.mem.pokeSpan s.i.toNat bytes).peek (s.i.toNat + k) = bytes.getD k 0x00#8) ∧
    (∀ a, a < s.i.toNat ∨ s.i.toNat + bytes.length ≤ a →
      (s.mem.pokeSpan s.i.toNat bytes).peek a = s.mem.peek a) := by
  refine ⟨fun k hk => ?_, fun a ha => ?_⟩
  · rw [Memory.peek_pokeSpan _ _ _ _ h hwf, if_pos (by omega), Nat.add_sub_cancel_left]
  · rw [Memory.peek_pokeSpan _ _ _ _ h hwf, if_neg (by omega)]

theorem byte_div_eq_ofNat (a b : Byte) : a / b = BitVec.ofNat 8 (a.toNat / b.toNat) := by
  rw [← BitVec.toNat_udiv, BitVec.ofNat_toNat, BitVec.setWidth_eq]

theorem byte_mod_eq_ofNat (a b : Byte) : a % b = BitVec.ofNat 8 (a.toNat % b.toNat) := by
  rw [← BitVec.toNat_umod, BitVec.ofNat_toNat, BitVec.setWidth_eq]

theorem decimalDigits_eq (b : Byte) :
    decimalDigits b =
      [BitVec.ofNat 8 (b.toNat / 100), BitVec.ofNat 8 (b.toNat / 10 % 10), BitVec.ofNat 8 (b.toNat % 10)] := by
  rw [decimalDigits, byte_mod_eq_ofNat (b / 10#8), BitVec.toNat_udiv, byte_mod_eq_ofNat b, byte_div_eq_ofNat b]
  rfl

/-- Settles O43: the three digits are the bytes of one span. -/
theorem storeDecimalDigits : Obligations.StoreDecimalDigits := by
  intro s x hwf
  refine ⟨fun hspan => ?_, fun hspan => ?_⟩
  · obtain ⟨hin, hout⟩ := peek_pokeSpan_fromI hwf (bytes := decimalDigits (s.reg x)) hspan
    rw [decimalDigits_eq] at hin hout
    have heffect : effect s (.ldB x) = .advance _ := spanEffect_inside (.inr hspan) _ _
    refine ⟨_, exec_of_advance heffect, ?_, ?_, ?_, ?_,
      advanced_setPc_stepDecay rfl rfl rfl, sameBut_of_advance heffect⟩
    all_goals rw [State.stepDecay_mem, State.setPc_mem, State.setMem_mem, decimalDigits_eq]
    · exact hin 0 (by simp)
    · exact hin 1 (by simp)
    · exact hin 2 (by simp)
    · exact hout
  · have hspan' : ¬ s.SpanInside 3 := by simpa using hspan
    exact exec_span_outside rfl hspan' (formatX_eq_ofNat 0xF#4 x 0x33#8)

/-- Settles O44: the registers up to Vx are the bytes of one span. -/
theorem storeRegisters : Obligations.StoreRegisters := by
  intro s x hwf
  refine ⟨fun hspan => ?_, fun hspan => ?_⟩
  · have hlen : s.i.toNat + (s.regsUpTo x).length ≤ 0x1000 := by rw [State.regsUpTo_length]; omega
    obtain ⟨hin, hout⟩ := peek_pokeSpan_fromI hwf hlen
    rw [State.regsUpTo_length] at hin hout
    have heffect : effect s (.stRegs x) = .advance _ := spanEffect_inside (.inr hspan) _ _
    refine ⟨_, exec_of_advance heffect, fun k hk => ?_, ?_, ?_,
      advanced_setPc_stepDecay rfl rfl rfl,
      (sameBut_of_advance heffect).mono (by simp only [effectParts]; split <;> simp)⟩
    · rw [State.stepDecay_mem, State.setPc_mem, State.setI_mem, State.setMem_mem, hin _ (by omega),
        State.regsUpTo_getD s x _ hk, BitVec.ofNat_toNat, BitVec.setWidth_eq]
    · rw [State.stepDecay_mem]
      exact hout
    · rw [State.stepDecay_i, State.setPc_i, State.setI_i, indexAfterTransfer_eq]
  · have hspan' : ¬ s.SpanInside (x.toNat + 1) := fun h => hspan (h.resolve_left (Nat.succ_ne_zero _))
    exact exec_span_outside rfl hspan' (formatX_eq_ofNat 0xF#4 x 0x55#8)

theorem bytesFromI_getD (s : State) {n k : Nat} (hk : k < n) :
    (s.bytesFromI n).getD k 0x00#8 = s.mem.peek (s.i.toNat + k) := by
  simp [State.bytesFromI, List.getD, hk]

/-- Settles O45: the bytes of one span go to the registers up to Vx. -/
theorem loadRegisters : Obligations.LoadRegisters := by
  intro s x
  refine ⟨fun hspan => ?_, fun hspan => ?_⟩
  · have heffect : effect s (.ldRegs x) = .advance _ := spanEffect_inside (.inr hspan) _ _
    refine ⟨_, exec_of_advance heffect, fun k => ?_, ?_,
      advanced_setPc_stepDecay rfl rfl rfl,
      (sameBut_of_advance heffect).mono (by simp only [effectParts]; split <;> simp)⟩
    · have hlen : 0 + (s.bytesFromI (x.toNat + 1)).length ≤ 16 := by
        rw [State.bytesFromI_length]
        omega
      rw [State.stepDecay_reg, State.setPc_reg, State.setI_reg, ← State.setRegsFrom_eq,
        State.setRegsFrom_reg s 0 _ hlen, State.bytesFromI_length]
      by_cases hk : k.toNat ≤ x.toNat
      · rw [if_pos (by omega), if_pos hk, Nat.sub_zero, bytesFromI_getD s (by omega)]
      · rw [if_neg (by omega), if_neg hk]
    · rw [State.stepDecay_i, State.setPc_i, State.setI_i, indexAfterTransfer_eq]
  · have hspan' : ¬ s.SpanInside (x.toNat + 1) := fun h => hspan (h.resolve_left (Nat.succ_ne_zero _))
    exact exec_span_outside rfl hspan' (formatX_eq_ofNat 0xF#4 x 0x65#8)

end Sys2Proof.Machine
end

section
/-!
PROOF. The model's own entry (log entry 8): `withFetchWord` puts the two bytes of an opcode where `step` fetches them,
and switches on P6 where the opcode needs it.
-/

namespace Sys2Proof.Machine

/-- The two bytes of an opcode, high byte first, are the opcode (20_memory.md R56). -/
theorem append_bytes (op : Word) : op.extractLsb' 8 8 ++ op.extractLsb' 0 8 = op := by
  apply BitVec.eq_of_toNat_eq
  rw [append_toNat, BitVec.extractLsb'_toNat, BitVec.extractLsb'_toNat, Nat.shiftRight_eq_div_pow]
  omega

/-- Two bytes written next to each other read back. -/
theorem peek_pokeSpan_two {m : Memory} (hwf : m.wf = true) {a : Nat} (ha : a ≤ 0xFFE) (hi lo : Byte) :
    (m.pokeSpan a [hi, lo]).peek a = hi ∧ (m.pokeSpan a [hi, lo]).peek (a + 1) = lo := by
  have hspan : a + [hi, lo].length ≤ 0x1000 := by simp; omega
  rw [Memory.peek_pokeSpan _ _ _ _ hspan hwf, Memory.peek_pokeSpan _ _ _ _ hspan hwf]
  simp

theorem wellFormed_or_needsExtMem (p6 : Bool) (i : Instr) : i.wellFormed (p6 || i.needsExtMem) = true := by
  unfold Instr.wellFormed
  cases i.needsExtMem with
  | true => simp
  | false => rfl

theorem withFetchWord_fetchesInstr {s : State} (hwf : s.mem.wf = true) (i : Instr) :
    FetchesInstr (s.withFetchWord 16 (encode i).toNat) i := by
  have hop : BitVec.ofNat 16 ((encode i).toNat % 2 ^ 16) = encode i := by
    rw [Nat.mod_eq_of_lt (encode i).isLt, BitVec.ofNat_toNat, BitVec.setWidth_eq]
  have hdecode : decode true (encode i) = .instr i := decodeOfEncodeIsTheInstruction true i (by simp [Instr.wellFormed])
  have hpc : (if s.canFetch then s.pc else 0x0200#16).toNat ≤ 0xFFE := by
    split
    · exact s.canFetch_iff.mp ‹_›
    · decide
  simp only [State.withFetchWord, hop, hdecode]
  refine ⟨rfl, hpc, ?_⟩
  obtain ⟨hhi, hlo⟩ := peek_pokeSpan_two hwf hpc ((encode i).extractLsb' 8 8) ((encode i).extractLsb' 0 8)
  simp only [hhi, hlo, append_bytes]
  exact decodeOfEncodeIsTheInstruction _ i (wellFormed_or_needsExtMem _ i)

/-- Settles O15: the placed opcode is the one fetched. -/
theorem placedInstructionRunsNext : Obligations.PlacedInstructionRunsNext :=
  fun _ i hwf => step_of_fetchesInstr (withFetchWord_fetchesInstr hwf i)

end Sys2Proof.Machine
end
